-- ==== Sys2Proof/Word.lean ====
section
/-! DEFINITION. The two value types of the machine (00_scope.md R4, R6): an 8-bit Byte and a 16-bit Word.
Both are unsigned; the one signed reading, of a branch offset, is `sext16` in Machine/Bytes.lean. -/

namespace Sys2Proof

/-- An unsigned 8-bit value, 0 to 255 (R4, R6). -/
abbrev Byte := BitVec 8

/-- An unsigned 16-bit value, 0 to 65535 (R4, R6): an address, the program counter, the stack pointer. -/
abbrev Word := BitVec 16

end Sys2Proof
end

