-- ==== Sys2Proof/Machine/Bytes.lean ====
section
/-! DEFINITION. Byte order, slices and extensions (00_scope.md R6, 20_memory.md R30, 30_encoding.md R52). -/

namespace Sys2Proof

/-- `hi:lo`, the Word `hi * 256 + lo` (R6). -/
def wordOf (hi lo : Byte) : Word := hi ++ lo

/-- `w[7:0]` (R6). -/
def lowByte (w : Word) : Byte := w.extractLsb' 0 8

/-- `w[15:8]` (R6): also the number of the page that holds `w` (R9). -/
def highByte (w : Word) : Byte := w.extractLsb' 8 8

/-- `zext_16(b)` (R6). -/
def zext16 (b : Byte) : Word := b.setWidth 16

/-- `sext_16(b)` (R6): the Byte as a two's-complement number -128 to 127, modulo 65536. -/
def sext16 (b : Byte) : Word := b.signExtend 16

/-- `v[7]` (R6). -/
def bit7 (v : Byte) : Bool := v.getLsbD 7

end Sys2Proof
end

