-- ==== Sys2Proof/Syntax.lean ====
section
/-! DEFINITION. The instructions, whole: one constructor of `Instr` for each of the 27 mnemonics of
spec/opcode_table.json (30_encoding.md R54, R55). Operands are the bytes and words of R52, as fetched. -/

namespace Sys2Proof

/-- The formats of R50. -/
inductive Format where
  /-- implied: the opcode alone -/
  | imp
  /-- implied with skip: the opcode alone is fetched, the handler steps over the next byte -/
  | imps
  /-- immediate: one operand byte, the value -/
  | imm
  /-- zero page: one operand byte, an address -/
  | zp
  /-- zero page indexed by X -/
  | zpx
  /-- zero page, quirk: one operand byte whose own memory cell is the operand (INC) -/
  | zpq
  /-- relative: one operand byte, a signed offset -/
  | rel
  /-- absolute: two operand bytes, a little-endian word -/
  | abs
  /-- unimplemented: the opcode alone -/
  | u
deriving DecidableEq, Repr

/-- The 26 handlers of R54: what the map `OPC` sends an implemented opcode byte to (40_fetch_decode_execute.md R73). -/
inductive Handler where
  | ldaImm | ldaZp | ldaZpX
  | adc | and | cmp
  | bcc | bcs | beq | bne | bmi | bpl | bvc | bvs
  | clc | cld | cli | clv | nop
  | decZp | inc
  | pha | pla
  | jsr | jmp | rts
deriving DecidableEq, Repr

/-- An instruction with its operand, in the order of R54; `unimpl` is the 230 byte values of R55. -/
inductive Instr where
  /-- LDA #, R81 -/
  | ldaImm (imm : Byte)
  /-- LDA zp, R82 -/
  | ldaZp (zp : Byte)
  /-- LDA zp,X, R83 -/
  | ldaZpX (zp : Byte)
  /-- ADC #, R86 -/
  | adc (imm : Byte)
  /-- AND #, R87 -/
  | and (imm : Byte)
  /-- CMP #, R88 -/
  | cmp (imm : Byte)
  /-- BCC, R95 -/
  | bcc (off : Byte)
  /-- BCS, R96 -/
  | bcs (off : Byte)
  /-- BEQ, R97 -/
  | beq (off : Byte)
  /-- BNE, R98 -/
  | bne (off : Byte)
  /-- BMI, R99 -/
  | bmi (off : Byte)
  /-- BPL, R100 -/
  | bpl (off : Byte)
  /-- BVC, R101 -/
  | bvc (off : Byte)
  /-- BVS, R102 -/
  | bvs (off : Byte)
  /-- CLC, R104 -/
  | clc
  /-- CLD, R105 -/
  | cld
  /-- CLI, R106 -/
  | cli
  /-- CLV, R107 -/
  | clv
  /-- NOP, R108 -/
  | nop
  /-- DEC zp, R111 -/
  | decZp (zp : Byte)
  /-- INC (quirk form), R112; the operand is the byte that is fetched and discarded -/
  | inc (operand : Byte)
  /-- PHA, R115 -/
  | pha
  /-- PLA, R116 -/
  | pla
  /-- JSR, R119 -/
  | jsr (target : Word)
  /-- JMP, R120 -/
  | jmp (target : Word)
  /-- RTS, R121 -/
  | rts
  /-- an opcode byte with no handler, R124 -/
  | unimpl (op : Byte)
deriving DecidableEq, Repr

end Sys2Proof
end

