-- ==== Sys2Proof/Config.lean ====
section
/-! DEFINITION. The record of the ten parameters that 00_scope.md R5 leaves to the implementation.
Their default values are `Sys2Proof.params` in Machine/Parameters.lean.
No free value stands here: 93_implementation_defined.md says that nothing in this machine draws a value. -/

namespace Sys2Proof

/-- The named parameters of R5. A meaning that depends on one takes this record as an argument. -/
structure Params where
  /-- `RESET_PC`, the program counter after Reset (D2) -/
  resetPc : Word
  /-- `SP_RESET`, the stack pointer after Reset (D3) -/
  spReset : Word
  /-- `OPC`, the map from opcode byte to handler (D4); a byte not listed is unimplemented -/
  opc : List (Byte × Handler)
  /-- `NOP_EXTRA_PC`, the extra advance of the no-operation handler (D7) -/
  nopExtraPc : Nat
  /-- `COST_PUSHPULL`, the fixed charge of PHA and PLA (D8) -/
  costPushPull : Nat
  /-- `COST_RMW`, the fixed charge of DEC and INC (D8) -/
  costRmw : Nat
  /-- `COST_PULL_WORD`, the charge of PullWord (D9) -/
  costPullWord : Nat
  /-- `COST_JSR_EXTRA`, the fixed charge of JSR beyond its primitives (D10) -/
  costJsrExtra : Nat
  /-- `ZPX_WRAP`, whether the zero-page,X address is reduced modulo 256 (D12) -/
  zpxWrap : Bool
  /-- `PLA_SETS_NZ`, whether PLA writes the zero and negative flags (D13) -/
  plaSetsNZ : Bool
deriving DecidableEq, Repr

end Sys2Proof
end

