-- ==== Sys2Proof/Machine/Parameters.lean ====
section
/-! DEFINITION. The default values of the parameters of 00_scope.md R5, the map `OPC` of 30_encoding.md R54 among them. -/

namespace Sys2Proof

/-- The map `OPC` of 30_encoding.md R54. PRESUMED but for 0xA9, which the source gives: the spec's values are the
MOS 6502 assignment (D4, D6, G1), log entry 3. That the list is complete is the spec's decision D5, log entry 4. -/
def opcodeMap : List (Byte × Handler) :=
  [(0xA9, .ldaImm), (0xA5, .ldaZp), (0xB5, .ldaZpX),
   (0x69, .adc), (0x29, .and), (0xC9, .cmp),
   (0x90, .bcc), (0xB0, .bcs), (0xF0, .beq), (0xD0, .bne),
   (0x30, .bmi), (0x10, .bpl), (0x50, .bvc), (0x70, .bvs),
   (0x18, .clc), (0xD8, .cld), (0x58, .cli), (0xB8, .clv), (0xEA, .nop),
   (0xC6, .decZp), (0xE6, .inc),
   (0x48, .pha), (0x68, .pla),
   (0x20, .jsr), (0x4C, .jmp), (0x60, .rts)]

/-- The defaults of R5. Each is the spec's own choice and is logged: `RESET_PC` 1 (PRESUMED), `SP_RESET` 2, `OPC` 3,
`NOP_EXTRA_PC` 5, the four costs 6, `ZPX_WRAP` 7, `PLA_SETS_NZ` 8 (DESIGN CHOICE). -/
def params : Params where
  resetPc := 0xFFFC
  spReset := 0x0100
  opc := opcodeMap
  nopExtraPc := 1
  costPushPull := 3
  costRmw := 3
  costPullWord := 2
  costJsrExtra := 0
  zpxWrap := true
  plaSetsNZ := false

end Sys2Proof
end

