-- ==== Sys2Proof/Machine/State.lean ====
section
/-! DEFINITION. The state the spec gives the machine (10_state.md R10 to R13, R19 to R21), as plain data, its value
after Reset (R24), and the reasons a step can stop. There is no system register, no mode, no exception register, no
reservation and no hidden state (R15, R16, R22, R23). -/

namespace Sys2Proof.Machine

/-- The seven status flags, each one independent bit (R13); there is no packed status byte (R14). -/
structure Flags where
  /-- carry -/
  c : Bool
  /-- zero -/
  z : Bool
  /-- interrupt-disable: cleared by CLI, read by nothing -/
  i : Bool
  /-- decimal: cleared by CLD, read by nothing -/
  d : Bool
  /-- break: written by Reset only, read by nothing -/
  b : Bool
  /-- overflow -/
  v : Bool
  /-- negative -/
  n : Bool
deriving DecidableEq, Repr

/-- The memory (R20) as a list of cells, in the canonical form `Memory.wf` of Machine/Ops.lean. -/
abbrev Memory := List Host.Cell

/-- The machine's state. `cyc` means something only inside an Execute transaction (R19); `diag` is output only (R21). -/
structure State where
  /-- accumulator (R10) -/
  a : Byte
  /-- index register X (R10) -/
  x : Byte
  /-- index register Y (R10) -/
  y : Byte
  /-- program counter (R11) -/
  pc : Word
  /-- stack pointer, a full address (R12) -/
  sp : Word
  /-- status flags (R13) -/
  flags : Flags
  /-- remaining cycle budget, a signed integer with no width (R19, D15) -/
  cyc : Int
  /-- memory (R20) -/
  mem : Memory
  /-- diagnostic trace, oldest report first (R21) -/
  diag : List Byte
deriving DecidableEq, Repr

/-- Why the machine stops with a fault: never. R130: the hardware raises no synchronous exception and has no fault
state, so this type has no constructor (log entry 16). Safe: nothing is stopped by it. -/
inductive Fault where
deriving DecidableEq, Repr

/-- Why the model gives no next state. -/
inductive Refusal where
  /-- An instruction with no meaning in `exec`, by its mnemonic. Raised by no arm of this model. Safe. -/
  | notModelled (mnemonic : String)
  /-- PHA, PLA, JSR or RTS started with `sp` outside 0x0100 to 0x01FF, a state no run reaches: refused as
  93_implementation_defined.md U9 says (log entry 15). Safe. -/
  | stackPointerOutsidePage
  /-- WriteWord at 0xFFFF, whose second byte has no address: no meaning, and no instruction reaches it
  (R63, R37, U1, D24; log entry 15). Safe. -/
  | wordWriteOutOfRange
  /-- A host access to an address outside 0x0000 to 0xFFFF: refused (R37, U1; log entry 17). Raised by the host's
  memory commands. Safe. -/
  | hostAddressOutOfRange
  /-- Execute, or a host read of memory, before the first Reset: refused (R25, U3, D21; log entry 17). Safe. -/
  | beforeFirstReset
deriving DecidableEq, Repr

/-- What an instruction, or a primitive that can be refused, answers. -/
abbrev Result := Host.Outcome State Fault Refusal

/-- The state after Reset under a parameter record (R24, R150). `cyc` is not part of R24's table; 0 is a DESIGN CHOICE
(log entry 10) that no rule reads before Execute sets it. -/
def State.resetWith (p : Params) : State where
  a := 0
  x := 0
  y := 0
  pc := p.resetPc
  sp := p.spReset
  flags := { c := false, z := false, i := false, d := false, b := false, v := false, n := false }
  cyc := 0
  mem := []
  diag := []

/-- The machine right after reset, at the defaults of R5. -/
def State.reset : State := State.resetWith params

end Sys2Proof.Machine
end

