-- ==== Sys2Proof/Machine/Flags.lean ====
section
/-! DEFINITION. Every flag computation of the spec (42_alu.md R86, R88, R91; 43_branch.md R93; 44_flag_clear_nop.md
R104 to R107). The decimal flag is read by none of them (R86, D17, log entry 13). -/

namespace Sys2Proof.Machine

/-- `SetZN(v)` (R91). -/
def Flags.setZN (f : Flags) (v : Byte) : Flags := { f with z := v == 0, n := bit7 v }

/-- ADC's sum in an integer wide enough for 0 to 511 (R86, R89). -/
def adcSum (a imm : Byte) (carry : Bool) : Nat := a.toNat + imm.toNat + carry.toNat

/-- ADC's result byte, the low 8 bits of the sum (R86). -/
def adcResult (a imm : Byte) (carry : Bool) : Byte := BitVec.ofNat 8 (adcSum a imm carry)

/-- ADC's flags from the accumulator before the instruction, the operand and the carry before it (R86): the overflow
test is the source's `(~(A ^ imm)) & (A ^ res) & 0x80`. -/
def Flags.adc (f : Flags) (a imm : Byte) : Flags :=
  let res := adcResult a imm f.c
  { f with
    c := decide (adcSum a imm f.c > 255)
    z := res == 0
    n := bit7 res
    v := (~~~(a ^^^ imm) &&& (a ^^^ res) &&& 0x80) != 0 }

/-- CMP's flags: the comparison is unsigned, and the difference is a Byte (R88, D16, log entry 13). -/
def Flags.cmp (f : Flags) (a imm : Byte) : Flags :=
  { f with
    c := decide (imm.toNat ≤ a.toNat)
    z := a == imm
    n := bit7 (a - imm) }

/-- `C <- 0` (R104). -/
def Flags.clearC (f : Flags) : Flags := { f with c := false }

/-- `D <- 0` (R105). -/
def Flags.clearD (f : Flags) : Flags := { f with d := false }

/-- `I <- 0` (R106). -/
def Flags.clearI (f : Flags) : Flags := { f with i := false }

/-- `V <- 0` (R107). -/
def Flags.clearV (f : Flags) : Flags := { f with v := false }

/-- `C = 0`, the condition of BCC (R93). -/
def Flags.carryClear (f : Flags) : Bool := !f.c

/-- `C = 1`, the condition of BCS (R93). -/
def Flags.carrySet (f : Flags) : Bool := f.c

/-- `Z = 1`, the condition of BEQ (R93). -/
def Flags.isZero (f : Flags) : Bool := f.z

/-- `Z = 0`, the condition of BNE (R93). -/
def Flags.notZero (f : Flags) : Bool := !f.z

/-- `N = 1`, the condition of BMI (R93). -/
def Flags.minus (f : Flags) : Bool := f.n

/-- `N = 0`, the condition of BPL (R93). -/
def Flags.plus (f : Flags) : Bool := !f.n

/-- `V = 0`, the condition of BVC (R93). -/
def Flags.overflowClear (f : Flags) : Bool := !f.v

/-- `V = 1`, the condition of BVS (R93). -/
def Flags.overflowSet (f : Flags) : Bool := f.v

end Sys2Proof.Machine
end

