-- ==== Sys2Proof/Machine/Operands.lean ====
section
/-! DEFINITION. Every operand form of 30_encoding.md R52 and every address an instruction computes (20_memory.md R35),
each as one function that the meanings, the access table and the statements share. -/

namespace Sys2Proof.Machine

/-- The effective address of the zero-page form: 0x0000 to 0x00FF (R52, R82, R111). -/
def zpAddress (zp : Byte) : Word := zext16 zp

/-- The effective address of the zero-page,X form (R52, R83). With `ZPX_WRAP` the sum is a Byte and stays in the zero
page; without it the sum is formed as a Word. The default is the spec's decision D12, log entry 7. -/
def zpxAddressWith (p : Params) (zp x : Byte) : Word :=
  if p.zpxWrap then zext16 (zp + x) else zext16 zp + zext16 x

/-- A branch's target from the address of the next instruction, modulo 65536 (R94, D14, log entry 9). -/
def branchTarget (next : Word) (off : Byte) : Word := next + sext16 off

/-- Whether a branch target lies in another page than the next instruction (R94). -/
def pageCrossed (next target : Word) : Bool := highByte target != highByte next

/-- The operand byte an assembler stores for a branch whose opcode is at `opcode` and whose label is at `label`
(30_encoding.md R57): the distance from the next instruction, modulo 256. -/
def relOperand (opcode label : Word) : Byte := (label - (opcode + 2)).setWidth 8

/-- INC's effective address from the program counter after the operand fetch: the operand byte's own address
(R112, D6, D14, log entry 12). -/
def incAddress (next : Word) : Word := next - 1

/-- `ModifySP()` on the value of `sp` (40_fetch_decode_execute.md R64): a reset to the opposite end of the stack page,
not modular arithmetic. -/
def modifySp (sp : Word) : Word :=
  if sp.toNat < 0x0100 then 0x01FF
  else if 0x01FF < sp.toNat then 0x0100
  else sp

/-- Where Push stores, and the value it leaves in `sp` (R65). -/
def pushAddress (sp : Word) : Word := modifySp (sp - 1)

/-- The value one Pull leaves in `sp` (R66): also where the next Pull of a PullWord reads (R67). -/
def pulledSp (sp : Word) : Word := modifySp (sp + 1)

/-- Where JSR stores the low byte of its return word: the old `sp` less 2, not wrapped; the high byte goes to the next
address (R119, C5). -/
def jsrAddress (sp : Word) : Word := sp - 2

/-- The word JSR stores, from the program counter after the operand fetch: the address of the last byte of the JSR
(R119, C1, log entry 18). -/
def jsrReturnWord (next : Word) : Word := next - 1

end Sys2Proof.Machine
end

