-- ==== Sys2Proof/Machine/Ops.lean ====
section
/-! DEFINITION. Memory (20_memory.md R30 to R34), the primitives of 40_fetch_decode_execute.md (R60 to R67), and the
few operations that several handlers share.
There is no operation for taking an exception and none for returning from one: the hardware has no exception, no trap
entry and no trap return (60_exceptions.md R130, R134, R135); `report` (R124, R131) is its only detected event. -/

namespace Sys2Proof.Machine

/-! ## Memory as a canonical list of cells -/

/-- What an address with no cell reads as: 0x00, since Reset zero-fills the whole memory (R24, R150). -/
def Memory.blank : Byte := 0

/-- The byte at an address. -/
def Memory.read : Memory → Nat → Byte
  | [], _ => Memory.blank
  | (k, v) :: rest, a => if k = a then v else Memory.read rest a

/-- The cells of every other address. -/
def Memory.erase (m : Memory) (a : Nat) : Memory := m.filter (fun cell => cell.1 != a)

/-- A cell put before the first cell of a higher address. -/
def Memory.insert : Memory → Nat → Byte → Memory
  | [], a, v => [(a, v)]
  | (k, w) :: rest, a, v => if a < k then (a, v) :: (k, w) :: rest else (k, w) :: Memory.insert rest a v

/-- Write one byte, keeping the canonical form: a byte that an address with no cell reads as leaves no cell. -/
def Memory.write (m : Memory) (a : Nat) (v : Byte) : Memory :=
  if v = Memory.blank then Memory.erase m a else Memory.insert (Memory.erase m a) a v

/-- The canonical form: addresses strictly rising, all below 65536 (R20), and no cell that reads as no cell does. -/
def Memory.wf (m : Memory) : Bool :=
  decide (m.Pairwise (fun l r => l.1 < r.1)) && m.all (fun cell => decide (cell.1 < 65536) && cell.2 != Memory.blank)

/-- `MemRead(a, 1)` (R33): no side effect, no cost of its own. -/
def State.memRead (s : State) (a : Word) : Byte := s.mem.read a.toNat

/-- `MemWrite(a, 1, v)` (R34): at once visible to every later read, no cost of its own. -/
def State.memWrite (s : State) (a : Word) (v : Byte) : State := { s with mem := s.mem.write a.toNat v }

/-! ## Fetch, read and write (R60 to R63) -/

/-- What fetching `n` bytes at the program counter does to the state: `pc` up by `n` modulo 65536, `cyc` down by `n`
(R60, R61; the wrap is the spec's decision D14, log entry 9). -/
def State.fetched (n : Nat) (s : State) : State := { s with pc := s.pc + BitVec.ofNat 16 n, cyc := s.cyc - n }

/-- An advance of the program counter that costs nothing (R108, R115, R116). -/
def State.advance (n : Nat) (s : State) : State := { s with pc := s.pc + BitVec.ofNat 16 n }

/-- A fixed decrement of the cycle counter (R68). -/
def State.charge (n : Nat) (s : State) : State := { s with cyc := s.cyc - n }

/-- `FetchByte()` (R60). -/
def fetchByte (s : State) : Byte × State := (s.memRead s.pc, s.fetched 1)

/-- `FetchWord()` (R61): little-endian, the second byte at `pc + 1` modulo 65536. -/
def fetchWord (s : State) : Word × State := (wordOf (s.memRead (s.pc + 1)) (s.memRead s.pc), s.fetched 2)

/-- `ReadByte(a)` (R62). -/
def readByte (a : Word) (s : State) : Byte × State := (s.memRead a, s.charge 1)

/-- `WriteWord(a, w)` (R63): low byte at `a`, then high byte at `a + 1`. At 0xFFFF it has no meaning
(R37, D24, log entry 15). -/
def writeWord (a w : Word) (s : State) : Result :=
  if a = 0xFFFF then .refused .wordWriteOutOfRange
  else .next (((s.memWrite a (lowByte w)).memWrite (a + 1) (highByte w)).charge 2)

/-! ## The stack (R64 to R67) -/

/-- The stack pointer is in the stack page 0x0100 to 0x01FF (R12). -/
abbrev State.SpInPage (s : State) : Prop := 0x0100 ≤ s.sp.toNat ∧ s.sp.toNat ≤ 0x01FF

/-- The stack rules assume that `sp` starts in the stack page; a state where it does not is refused
(93_implementation_defined.md U9, D26, log entry 15). -/
def onStack (s : State) (r : Result) : Result :=
  if s.SpInPage then r else .refused .stackPointerOutsidePage

/-- `Push(v)` (R65). -/
def push (v : Byte) (s : State) : State :=
  let sp := pushAddress s.sp
  State.memWrite { s with sp := sp } sp v

/-- `Pull()` (R66). -/
def pull (s : State) : Byte × State := (s.memRead s.sp, { s with sp := pulledSp s.sp })

/-- `PullWord()` (R67): two pulls, low byte first, the pointer wrapped after each (C2, log entry 18). -/
def pullWordWith (p : Params) (s : State) : Word × State :=
  let lo := pull s
  let hi := pull lo.2
  (wordOf hi.1 lo.1, hi.2.charge p.costPullWord)

/-! ## Shared by several handlers -/

/-- Go on with the next state of a primitive that can be refused. -/
def andThen (r : Result) (k : State → Result) : Result :=
  match r with
  | .next s => k s
  | .fault f => .fault f
  | .refused why => .refused why

/-- `A <- v; SetZN(A)`, the end of every load and of AND (R80, R87). -/
def loadA (v : Byte) (s : State) : State := { s with a := v, flags := s.flags.setZN v }

/-- Read a byte, change it, write it back and set `Z` and `N` from the new value (R111, R112). -/
def modifyByte (f : Byte → Byte) (ea : Word) (s : State) : State :=
  let v := f (s.memRead ea)
  { s.memWrite ea v with flags := s.flags.setZN v }

/-- The taken half of `Branch(cond)` (R94), from a state whose `pc` is the address of the next instruction: one cycle,
one more when the target is in another page, then the jump. -/
def takeBranch (off : Byte) (s : State) : State :=
  let target := branchTarget s.pc off
  { s.charge (if pageCrossed s.pc target then 2 else 1) with pc := target }

/-- `Branch(cond)` (R94) from the branch's own opcode: the offset is always fetched. -/
def branchIf (cond : Bool) (off : Byte) (s : State) : State :=
  if cond then takeBranch off (s.fetched 2) else s.fetched 2

/-- `Report(op)` (R124): the opcode byte is appended to the diagnostic trace (R21, D20, log entry 14). -/
def report (op : Byte) (s : State) : State := { s with diag := s.diag ++ [op] }

end Sys2Proof.Machine
end

