-- ==== Sys2Proof/Machine/Alu.lean ====
section
/-! DEFINITION. The arithmetic and logic instructions, immediate form only (42_alu.md). -/

namespace Sys2Proof.Machine

/-- ADC # (R86): always binary; the flags are computed from the old accumulator and the old carry. -/
def execAdc (imm : Byte) (s : State) : Result :=
  .next { s.fetched 2 with a := adcResult s.a imm s.flags.c, flags := s.flags.adc s.a imm }

/-- AND # (R87). -/
def execAnd (imm : Byte) (s : State) : Result := .next (loadA (s.a &&& imm) (s.fetched 2))

/-- CMP # (R88): the accumulator is not written. -/
def execCmp (imm : Byte) (s : State) : Result := .next { s.fetched 2 with flags := s.flags.cmp s.a imm }

end Sys2Proof.Machine
end

