-- ==== Sys2Proof/Machine/Branch.lean ====
section
/-! DEFINITION. The eight conditional branches (43_branch.md R93 to R102): one mechanism, eight conditions. -/

namespace Sys2Proof.Machine

/-- BCC (R95). -/
def execBcc (off : Byte) (s : State) : Result := .next (branchIf s.flags.carryClear off s)

/-- BCS (R96). -/
def execBcs (off : Byte) (s : State) : Result := .next (branchIf s.flags.carrySet off s)

/-- BEQ (R97). -/
def execBeq (off : Byte) (s : State) : Result := .next (branchIf s.flags.isZero off s)

/-- BNE (R98). -/
def execBne (off : Byte) (s : State) : Result := .next (branchIf s.flags.notZero off s)

/-- BMI (R99). -/
def execBmi (off : Byte) (s : State) : Result := .next (branchIf s.flags.minus off s)

/-- BPL (R100). -/
def execBpl (off : Byte) (s : State) : Result := .next (branchIf s.flags.plus off s)

/-- BVC (R101). -/
def execBvc (off : Byte) (s : State) : Result := .next (branchIf s.flags.overflowClear off s)

/-- BVS (R102). -/
def execBvs (off : Byte) (s : State) : Result := .next (branchIf s.flags.overflowSet off s)

end Sys2Proof.Machine
end

