-- ==== Sys2Proof/Machine/FlagClear.lean ====
section
/-! DEFINITION. The four flag clears and the no-operation (44_flag_clear_nop.md R104 to R108). -/

namespace Sys2Proof.Machine

/-- CLC (R104). -/
def execClc (s : State) : Result := .next { s.fetched 1 with flags := s.flags.clearC }

/-- CLD (R105). -/
def execCld (s : State) : Result := .next { s.fetched 1 with flags := s.flags.clearD }

/-- CLI (R106): it enables nothing, there being no interrupts (R132). -/
def execCli (s : State) : Result := .next { s.fetched 1 with flags := s.flags.clearI }

/-- CLV (R107). -/
def execClv (s : State) : Result := .next { s.fetched 1 with flags := s.flags.clearV }

/-- NOP (R108), under a parameter record: after the opcode fetch the handler advances `pc` by `NOP_EXTRA_PC`, uncharged. -/
def execNopWith (p : Params) (s : State) : Result := .next ((s.fetched 1).advance p.nopExtraPc)

/-- NOP (R108); the default advance is the spec's decision D7 (C6, log entry 5). -/
def execNop (s : State) : Result := execNopWith params s

end Sys2Proof.Machine
end

