-- ==== Sys2Proof/Machine/Jump.lean ====
section
/-! DEFINITION. Jump to subroutine, absolute jump, return from subroutine (47_jump_subroutine.md). -/

namespace Sys2Proof.Machine

/-- JSR (R119), under a parameter record: the operand is fetched first, the return word goes to the old `sp` less 2
with no wrap of the address, then `sp` moves by two and is wrapped once (C1, C5, log entry 18). -/
def execJsrWith (p : Params) (target : Word) (s : State) : Result :=
  let fetched := s.fetched 3
  onStack s
    (andThen (writeWord (jsrAddress fetched.sp) (jsrReturnWord fetched.pc) fetched) fun w =>
      .next ({ w with sp := modifySp (w.sp - 2), pc := target }.charge p.costJsrExtra))

/-- JSR (R119). -/
def execJsr (target : Word) (s : State) : Result := execJsrWith params target s

/-- JMP (R120): one cycle beyond the fetches. -/
def execJmp (target : Word) (s : State) : Result :=
  .next ({ s.fetched 3 with pc := target }.charge 1)

/-- RTS (R121), under a parameter record: the word pulled plus one, modulo 65536; one cycle beyond PullWord's. -/
def execRtsWith (p : Params) (s : State) : Result :=
  let r := pullWordWith p (s.fetched 1)
  onStack s (.next ({ r.2 with pc := r.1 + 1 }.charge 1))

/-- RTS (R121). -/
def execRts (s : State) : Result := execRtsWith params s

end Sys2Proof.Machine
end

