-- ==== Sys2Proof/Machine/Load.lean ====
section
/-! DEFINITION. The load instructions (41_load.md). A meaning is the whole instruction, from the state whose `pc` is the
address of the opcode: the fetch of the opcode and of the operand bytes (R60, R61) is its first step. -/

namespace Sys2Proof.Machine

/-- LDA # (R81). -/
def execLdaImm (imm : Byte) (s : State) : Result := .next (loadA imm (s.fetched 2))

/-- LDA zp (R82); the data byte is read with ReadByte (D11, log entry 6). -/
def execLdaZp (zp : Byte) (s : State) : Result :=
  let r := readByte (zpAddress zp) (s.fetched 2)
  .next (loadA r.1 r.2)

/-- LDA zp,X (R83), under a parameter record: one cycle for the index computation, whether or not the sum wraps. -/
def execLdaZpXWith (p : Params) (zp : Byte) (s : State) : Result :=
  let r := readByte (zpxAddressWith p zp s.x) ((s.fetched 2).charge 1)
  .next (loadA r.1 r.2)

/-- LDA zp,X (R83). -/
def execLdaZpX (zp : Byte) (s : State) : Result := execLdaZpXWith params zp s

end Sys2Proof.Machine
end

