-- ==== Sys2Proof/Machine/ReadModifyWrite.lean ====
section
/-! DEFINITION. The two memory read-modify-write instructions (45_memory_rmw.md). -/

namespace Sys2Proof.Machine

/-- DEC zp (R111), under a parameter record. -/
def execDecZpWith (p : Params) (zp : Byte) (s : State) : Result :=
  .next ((modifyByte (fun v => v - 1) (zpAddress zp) (s.fetched 2)).charge p.costRmw)

/-- DEC zp (R111). -/
def execDecZp (zp : Byte) (s : State) : Result := execDecZpWith params zp s

/-- INC (R112), under a parameter record: the operand byte is fetched and discarded, and the byte at `pc - 1`, which is
that byte's own address, is incremented in memory (log entry 12). -/
def execIncWith (p : Params) (_operand : Byte) (s : State) : Result :=
  let fetched := s.fetched 2
  .next ((modifyByte (fun v => v + 1) (incAddress fetched.pc) fetched).charge p.costRmw)

/-- INC (R112). -/
def execInc (operand : Byte) (s : State) : Result := execIncWith params operand s

end Sys2Proof.Machine
end

