-- ==== Sys2Proof/Machine/Stack.lean ====
section
/-! DEFINITION. Push and pull accumulator (46_stack.md). Both step over the byte after the opcode without reading it. -/

namespace Sys2Proof.Machine

/-- PHA (R115), under a parameter record. -/
def execPhaWith (p : Params) (s : State) : Result :=
  onStack s (.next (((push s.a (s.fetched 1)).advance 1).charge p.costPushPull))

/-- PHA (R115). -/
def execPha (s : State) : Result := execPhaWith params s

/-- PLA (R116), under a parameter record: `Z` and `N` are written only if `PLA_SETS_NZ`. -/
def execPlaWith (p : Params) (s : State) : Result :=
  let r := pull (s.fetched 1)
  let loaded := if p.plaSetsNZ then loadA r.1 r.2 else { r.2 with a := r.1 }
  onStack s (.next ((loaded.advance 1).charge p.costPushPull))

/-- PLA (R116); that it writes no flag is the spec's decision D13 (log entry 8). -/
def execPla (s : State) : Result := execPlaWith params s

end Sys2Proof.Machine
end

