-- ==== Sys2Proof/Machine/Unimplemented.lean ====
section
/-! DEFINITION. Unimplemented opcodes (48_unimplemented.md): a one-cycle no-op that reports its byte. -/

namespace Sys2Proof.Machine

/-- An opcode byte with no handler (R124): not a trap, and no operand byte is consumed. -/
def execUnimpl (op : Byte) (s : State) : Result := .next (report op (s.fetched 1))

end Sys2Proof.Machine
end

