-- ==== Sys2Proof/WellFormed.lean ====
section
/-! DEFINITION. Which terms of `Instr` stand for an instruction. Every operand value is admitted (30_encoding.md R52:
every Byte, every Word), so the one check is that the byte of `unimpl` is an unimplemented opcode (R55). -/

namespace Sys2Proof

/-- Well-formed under a parameter record: the byte of `unimpl` has no handler in `OPC`. -/
def Instr.wfWith (p : Params) : Instr → Bool
  | .unimpl op => (p.opc.lookup op).isNone
  | .ldaImm _ | .ldaZp _ | .ldaZpX _ | .adc _ | .and _ | .cmp _ => true
  | .bcc _ | .bcs _ | .beq _ | .bne _ | .bmi _ | .bpl _ | .bvc _ | .bvs _ => true
  | .clc | .cld | .cli | .clv | .nop => true
  | .decZp _ | .inc _ | .pha | .pla | .jsr _ | .jmp _ | .rts => true

/-- Well-formed with the map of R54. -/
def Instr.wf (i : Instr) : Bool := i.wfWith params

/-- A map of opcode bytes that can be decoded and encoded: each of the 26 handlers has a row, and no byte has two. -/
def OpcComplete (opc : List (Byte × Handler)) : Prop :=
  (opc.map Prod.fst).Nodup ∧ ∀ h : Handler, h ∈ opc.map Prod.snd

end Sys2Proof
end

