-- ==== Sys2Proof/Decode.lean ====
section
/-! DEFINITION. Decoding and encoding (30_encoding.md R50, R52 to R56). The decoder is total: every opcode byte has a
meaning (R56), and a list of bytes that is too short for its opcode is rejected by name. The encoder is written from
the same tables. Both take the parameter record, because the opcode map is a parameter (R5). -/

namespace Sys2Proof

/-- The format column of R54. -/
def Handler.format : Handler → Format
  | .ldaImm | .adc | .and | .cmp => .imm
  | .ldaZp | .decZp => .zp
  | .ldaZpX => .zpx
  | .bcc | .bcs | .beq | .bne | .bmi | .bpl | .bvc | .bvs => .rel
  | .clc | .cld | .cli | .clv | .rts => .imp
  | .nop | .pha | .pla => .imps
  | .inc => .zpq
  | .jsr | .jmp => .abs

/-- How many operand bytes are fetched after the opcode, by format: the "bytes fetched" column of R50 less the opcode. -/
def Format.operandBytes : Format → Nat
  | .imp | .imps | .u => 0
  | .imm | .zp | .zpx | .zpq | .rel => 1
  | .abs => 2

/-- The handler of an instruction, none for an unimplemented opcode (R54, R55). -/
def Instr.handler : Instr → Option Handler
  | .ldaImm _ => some .ldaImm
  | .ldaZp _ => some .ldaZp
  | .ldaZpX _ => some .ldaZpX
  | .adc _ => some .adc
  | .and _ => some .and
  | .cmp _ => some .cmp
  | .bcc _ => some .bcc
  | .bcs _ => some .bcs
  | .beq _ => some .beq
  | .bne _ => some .bne
  | .bmi _ => some .bmi
  | .bpl _ => some .bpl
  | .bvc _ => some .bvc
  | .bvs _ => some .bvs
  | .clc => some .clc
  | .cld => some .cld
  | .cli => some .cli
  | .clv => some .clv
  | .nop => some .nop
  | .decZp _ => some .decZp
  | .inc _ => some .inc
  | .pha => some .pha
  | .pla => some .pla
  | .jsr _ => some .jsr
  | .jmp _ => some .jmp
  | .rts => some .rts
  | .unimpl _ => none

/-- The format of an instruction (R50, R54, R55). -/
def Instr.format (i : Instr) : Format :=
  match i.handler with
  | some h => h.format
  | none => .u

/-- How many bytes an instruction has in memory that are fetched, the opcode included (R50). The byte that NOP, PHA
and PLA step over is not one of them: it is never read. -/
def Instr.length (i : Instr) : Nat := 1 + i.format.operandBytes

/-- The instruction a handler's opcode stands for, with the first and the second operand byte; a handler that fetches
fewer bytes ignores the rest. The word operand is little-endian (R30, R52). -/
def Handler.instr (h : Handler) (b1 b2 : Byte) : Instr :=
  match h with
  | .ldaImm => .ldaImm b1
  | .ldaZp => .ldaZp b1
  | .ldaZpX => .ldaZpX b1
  | .adc => .adc b1
  | .and => .and b1
  | .cmp => .cmp b1
  | .bcc => .bcc b1
  | .bcs => .bcs b1
  | .beq => .beq b1
  | .bne => .bne b1
  | .bmi => .bmi b1
  | .bpl => .bpl b1
  | .bvc => .bvc b1
  | .bvs => .bvs b1
  | .clc => .clc
  | .cld => .cld
  | .cli => .cli
  | .clv => .clv
  | .nop => .nop
  | .decZp => .decZp b1
  | .inc => .inc b1
  | .pha => .pha
  | .pla => .pla
  | .jsr => .jsr (wordOf b2 b1)
  | .jmp => .jmp (wordOf b2 b1)
  | .rts => .rts

/-- The instruction an opcode byte and the two bytes after it stand for: R73, the opcode byte is the dispatch key,
and a byte with no handler is the unimplemented opcode (R55). -/
def assembleWith (p : Params) (op b1 b2 : Byte) : Instr :=
  match p.opc.lookup op with
  | some h => h.instr b1 b2
  | none => .unimpl op

/-- How many operand bytes an opcode byte fetches: a function of that byte alone (R53). -/
def operandBytesWith (p : Params) (op : Byte) : Nat :=
  match p.opc.lookup op with
  | some h => h.format.operandBytes
  | none => 0

/-- Why a list of bytes is no instruction. Both are about a list that ends too soon, which memory
never does (DESIGN CHOICE, log 24); no byte value is rejected (R56). -/
inductive DecodeError where
  /-- the list is empty -/
  | noOpcode
  /-- the list ends before the last operand byte -/
  | operandMissing
deriving DecidableEq, Repr

/-- Decode the first instruction of a list of bytes; the rest of the list is given back. -/
def decodeWith (p : Params) : List Byte → Except DecodeError (Instr × List Byte)
  | [] => .error .noOpcode
  | op :: rest =>
    if rest.length < operandBytesWith p op then .error .operandMissing
    else .ok (assembleWith p op (rest.getD 0 0) (rest.getD 1 0), rest.drop (operandBytesWith p op))

/-- Decoding with the opcode map of R54. -/
def decode (bytes : List Byte) : Except DecodeError (Instr × List Byte) := decodeWith params bytes

/-- The opcode byte of a handler: its row in the map (0 if it has none, which no complete map allows). -/
def opcodeWith (p : Params) (h : Handler) : Byte :=
  match p.opc.find? (fun row => row.2 == h) with
  | some row => row.1
  | none => 0

/-- The operand bytes of an instruction, in memory order (R50: byte 1, byte 2; R30: low byte first). -/
def Instr.operand : Instr → List Byte
  | .ldaImm b | .ldaZp b | .ldaZpX b | .adc b | .and b | .cmp b => [b]
  | .bcc b | .bcs b | .beq b | .bne b | .bmi b | .bpl b | .bvc b | .bvs b => [b]
  | .decZp b | .inc b => [b]
  | .jsr w | .jmp w => [lowByte w, highByte w]
  | .clc | .cld | .cli | .clv | .nop | .pha | .pla | .rts | .unimpl _ => []

/-- The bytes of an instruction (R50). -/
def encodeWith (p : Params) (i : Instr) : List Byte :=
  match i with
  | .unimpl op => [op]
  | .ldaImm _ | .ldaZp _ | .ldaZpX _ | .adc _ | .and _ | .cmp _
  | .bcc _ | .bcs _ | .beq _ | .bne _ | .bmi _ | .bpl _ | .bvc _ | .bvs _
  | .clc | .cld | .cli | .clv | .nop | .decZp _ | .inc _ | .pha | .pla | .jsr _ | .jmp _ | .rts =>
    match i.handler with
    | some h => opcodeWith p h :: i.operand
    | none => []

/-- Encoding with the opcode map of R54. -/
def encode (i : Instr) : List Byte := encodeWith params i

/-- The three bytes of a number whose bits are numbered as spec/opcode_table.json numbers an instruction's, least
significant bit first, bits at and above `nbits` taken as 0; the longest instruction has three bytes (R50). -/
def tableBytes (nbits w : Nat) : List Byte :=
  let v := w % 2 ^ nbits
  [BitVec.ofNat 8 v, BitVec.ofNat 8 (v / 2 ^ 8), BitVec.ofNat 8 (v / 2 ^ 16)]

/-- What the decoder reads from an instruction's bits, numbered as the opcode table numbers them. -/
def decodeTableWord (nbits w : Nat) : Option Instr :=
  match decode (tableBytes nbits w) with
  | .ok (i, _) => some i
  | .error _ => none

end Sys2Proof
end

