-- ==== Sys2Proof/Machine/Fetch.lean ====
section
/-! DEFINITION. Which instruction stands at the program counter, and the fetch as the execute loop does it
(40_fetch_decode_execute.md R60, R61, R72, R73). -/

namespace Sys2Proof.Machine

/-- The instruction at the program counter. Reads have no side effect (R33), so the bytes an opcode does not fetch may
be looked at and ignored here; that nothing depends on them is what `fetchInstr` below is compared with. -/
def instrAt (s : State) : Instr :=
  assembleWith params (s.memRead s.pc) (s.memRead (s.pc + 1)) (s.memRead (s.pc + 2))

/-- The fetch byte by byte, in the loop's own words: `op <- FetchByte()`, then the operand bytes the opcode asks for
with FetchByte or FetchWord, and nothing looked at ahead (R53, R72, R73). It gives the instruction and the state after
its fetch. -/
def fetchInstr (s : State) : Instr × State :=
  let op := fetchByte s
  match operandBytesWith params op.1 with
  | 0 => (assembleWith params op.1 0 0, op.2)
  | 1 =>
    let b := fetchByte op.2
    (assembleWith params op.1 b.1 0, b.2)
  | _ =>
    let w := fetchWord op.2
    (assembleWith params op.1 (lowByte w.1) (highByte w.1), w.2)

/-- Bytes stored one after another from an address on, the address modulo 65536. -/
def placeBytes : List Byte → Word → State → State
  | [], _, s => s
  | b :: rest, a, s => placeBytes rest (a + 1) (s.memWrite a b)

/-- The bits of one instruction, numbered as the opcode table numbers them, stored where the next fetch reads:
from the program counter on (R72; log entry 19). -/
def placeFetchWord (s : State) (nbits w : Nat) : State := placeBytes (tableBytes nbits w) s.pc s

end Sys2Proof.Machine
end

