-- ==== Sys2Proof/Machine/Step.lean ====
section
/-! DEFINITION. One step: one turn of the execute loop's body (40_fetch_decode_execute.md R72), that is one whole
instruction. The loop itself, with its test of the budget, is `executeLoop` in Machine/Commands.lean (log entry 11). -/

namespace Sys2Proof.Machine

/-- Fetch the instruction at the program counter and run it (R72, R73, R78). -/
def step (s : State) : Host.Outcome State Fault Refusal := exec (instrAt s) s

/-- `s` with one instruction stored where `step` fetches its next one. -/
def State.withFetchWord (s : State) (nbits w : Nat) : State := placeFetchWord s nbits w

end Sys2Proof.Machine
end

