-- ==== Sys2Proof/Machine/Tables.lean ====
section
/-! DEFINITION. Two tables of the spec, written from the spec and not from the meanings: the cycle costs of
70_reset_and_hazards.md R160 and the memory accesses of 20_memory.md R35. Statements compare the machine with them. -/

namespace Sys2Proof.Machine

/-- The branch rows of R160 and the cost table of R94, from the address of the branch's opcode. -/
def branchCost (cond : Bool) (off : Byte) (pc : Word) : Nat :=
  if !cond then 2
  else if highByte (branchTarget (pc + 2) off) = highByte (pc + 2) then 3
  else 4

/-- The total column of R160: what an instruction takes from `cyc`, the opcode fetch included. -/
def cycleCost (i : Instr) (s : State) : Nat :=
  match i with
  | .ldaImm _ => 2
  | .ldaZp _ => 3
  | .ldaZpX _ => 4
  | .adc _ | .and _ | .cmp _ => 2
  | .bcc off => branchCost (!s.flags.c) off s.pc
  | .bcs off => branchCost s.flags.c off s.pc
  | .beq off => branchCost s.flags.z off s.pc
  | .bne off => branchCost (!s.flags.z) off s.pc
  | .bmi off => branchCost s.flags.n off s.pc
  | .bpl off => branchCost (!s.flags.n) off s.pc
  | .bvc off => branchCost (!s.flags.v) off s.pc
  | .bvs off => branchCost s.flags.v off s.pc
  | .clc | .cld | .cli | .clv | .nop => 1
  | .decZp _ | .inc _ => 5
  | .pha | .pla => 4
  | .jsr _ => 5
  | .jmp _ => 4
  | .rts => 4
  | .unimpl _ => 1

/-- The table of the eight conditions (43_branch.md R93): each branch with the value of its condition. -/
def branchRows (off : Byte) (f : Flags) : List (Instr × Bool) :=
  [(Instr.bcc off, decide (f.c = false)), (Instr.bcs off, decide (f.c = true)),
   (Instr.beq off, decide (f.z = true)), (Instr.bne off, decide (f.z = false)),
   (Instr.bmi off, decide (f.n = true)), (Instr.bpl off, decide (f.n = false)),
   (Instr.bvc off, decide (f.v = false)), (Instr.bvs off, decide (f.v = true))]

/-- Read or write, in R35's table. -/
inductive AccessKind where
  | read
  | write
deriving DecidableEq, Repr

/-- One single-byte access (R32). -/
structure Access where
  kind : AccessKind
  address : Word
deriving DecidableEq, Repr

/-- `r M[a]`. -/
def readOf (a : Word) : Access := { kind := .read, address := a }

/-- `w M[a]`. -/
def writeOf (a : Word) : Access := { kind := .write, address := a }

/-- The accesses of one instruction in order, from the state before it (R35): `pc0` is `s.pc`, `sp0` is `s.sp`. The
zero-page,X row is the spec's decision D12, the order within an instruction D25 (log entry 20). -/
def accesses (i : Instr) (s : State) : List Access :=
  let pc0 := s.pc
  let sp0 := s.sp
  readOf pc0 ::
    match i with
    | .ldaImm _ | .adc _ | .and _ | .cmp _ => [readOf (pc0 + 1)]
    | .ldaZp zp => [readOf (pc0 + 1), readOf (zpAddress zp)]
    | .ldaZpX zp => [readOf (pc0 + 1), readOf (zpxAddressWith params zp s.x)]
    | .bcc _ | .bcs _ | .beq _ | .bne _ | .bmi _ | .bpl _ | .bvc _ | .bvs _ => [readOf (pc0 + 1)]
    | .clc | .cld | .cli | .clv | .nop => []
    | .decZp zp => [readOf (pc0 + 1), readOf (zpAddress zp), writeOf (zpAddress zp)]
    | .inc _ => [readOf (pc0 + 1), readOf (pc0 + 1), writeOf (pc0 + 1)]
    | .pha => [writeOf (pushAddress sp0)]
    | .pla => [readOf sp0]
    | .jsr _ => [readOf (pc0 + 1), readOf (pc0 + 2), writeOf (jsrAddress sp0), writeOf (jsrAddress sp0 + 1)]
    | .jmp _ => [readOf (pc0 + 1), readOf (pc0 + 2)]
    | .rts => [readOf sp0, readOf (pulledSp sp0)]
    | .unimpl _ => []

/-- The addresses an instruction reads, its own bytes among them. -/
def readAddresses (i : Instr) (s : State) : List Word :=
  ((accesses i s).filter (fun x => x.kind == .read)).map Access.address

/-- The addresses an instruction stores to. -/
def storeAddresses (i : Instr) (s : State) : List Word :=
  ((accesses i s).filter (fun x => x.kind == .write)).map Access.address

end Sys2Proof.Machine
end

