-- ==== Sys2Proof/Machine/Commands.lean ====
section
/-! DEFINITION. The block as its host sees it (10_state.md R25, R26; 40_fetch_decode_execute.md R70 to R76;
70_reset_and_hazards.md R150, R152): the two commands Reset and Execute, the host's direct access to memory, and the
time before the first Reset. Each command is one atomic transaction, so the host has no move during one (R45). -/

namespace Sys2Proof.Machine

/-- The loop of R72, `while cyc > 0`, for at most `fuel` turns. `execute` gives it enough: every instruction costs at
least one cycle (R74). -/
def executeLoop : Nat → State → Result
  | 0, s => .next s
  | fuel + 1, s => if 0 < s.cyc then andThen (step s) (executeLoop fuel) else .next s

/-- `Execute(budget)` (R72): the budget is a signed integer (D15, log entry 10), and at most `budget` instructions run
(R74). -/
def execute (budget : Int) (s : State) : Result := executeLoop budget.toNat { s with cyc := budget }

/-- `Reset()` on a block that already has a state (R150): everything but `cyc`, which Reset does not touch (R19). -/
def resetCommand (s : State) : State := { State.reset with cyc := s.cyc }

/-- What the host can ask of the block between transactions (R26, R70). Host addresses are numbers the host makes up. -/
inductive Command where
  /-- `reset(memory)` -/
  | reset
  /-- `execute(cycle_budget, memory)` -/
  | execute (budget : Int)
  /-- a direct indexed read of the memory image -/
  | readByte (address : Nat)
  /-- a direct indexed write into the memory image -/
  | writeByte (address : Nat) (value : Byte)
deriving DecidableEq, Repr

/-- The block in the host's hands: constructed and never Reset, when no state element has a value (R25), or with a
state. -/
inductive Block where
  | constructed
  | ready (s : State)
deriving DecidableEq, Repr

/-- What one command answers: the block after it, and the byte of a read. -/
abbrev Reply := Host.Outcome (Block × Option Byte) Fault Refusal

/-- A command's state answer as a reply with no byte. -/
def replyState (r : Result) : Reply :=
  match r with
  | .next s => .next (.ready s, none)
  | .fault f => .fault f
  | .refused why => .refused why

/-- One command (R26, R70). Before the first Reset, Execute and a read are refused (U3, D21) and a write is lost, since
the Reset that must follow erases it (R152); an address outside the memory is refused (R37, U1). Log entry 17. -/
def Block.command (c : Command) (b : Block) : Reply :=
  match c, b with
  | .reset, .constructed => .next (.ready State.reset, none)
  | .reset, .ready s => .next (.ready (resetCommand s), none)
  | .execute _, .constructed => .refused .beforeFirstReset
  | .execute budget, .ready s => replyState (execute budget s)
  | .readByte a, .constructed =>
    if a < 65536 then .refused .beforeFirstReset else .refused .hostAddressOutOfRange
  | .readByte a, .ready s =>
    if a < 65536 then .next (.ready s, some (s.mem.read a)) else .refused .hostAddressOutOfRange
  | .writeByte a _, .constructed =>
    if a < 65536 then .next (.constructed, none) else .refused .hostAddressOutOfRange
  | .writeByte a v, .ready s =>
    if a < 65536 then .next (.ready { s with mem := s.mem.write a v }, none) else .refused .hostAddressOutOfRange

/-- Commands one after another, stopping at the first that is refused; the bytes of the reads are gathered in order. -/
def Block.commands : List Command → Block → Host.Outcome (Block × List Byte) Fault Refusal
  | [], b => .next (b, [])
  | c :: rest, b =>
    match b.command c with
    | .next (b', out) =>
      match Block.commands rest b' with
      | .next (b'', more) => .next (b'', out.toList ++ more)
      | .fault f => .fault f
      | .refused why => .refused why
    | .fault f => .fault f
    | .refused why => .refused why

end Sys2Proof.Machine
end

