-- ==== Sys2Proof/Safety.lean ====
section
/-! DEFINITION. What the statements call good: the invariant of the machine, the reset values no instruction changes,
a quiet run, and the states a host can bring the block to. -/

namespace Sys2Proof.Machine

/-- The invariant every step keeps: the stack pointer is in its page (10_state.md R12) and the memory list is in its
canonical form. -/
def State.Inv (s : State) : Prop := s.SpInPage ∧ Memory.wf s.mem = true

/-- What no instruction changes from its reset value: `X = Y = 0` (R10) and `I = D = B = 0` (R13). -/
def State.NeverWritten (s : State) : Prop :=
  s.x = 0 ∧ s.y = 0 ∧ s.flags.i = false ∧ s.flags.d = false ∧ s.flags.b = false

/-- No unimplemented opcode was executed between two states: `diag` is unchanged (48_unimplemented.md R125). -/
def Quiet (before after : State) : Prop := after.diag = before.diag

/-- The program counter went forward by `n` bytes, said where no end of the address space is met: the reading at the
end, modulo 65536, is the spec's decision D14 (log entry 9). -/
def PcAdvances (n : Nat) (before after : State) : Prop :=
  before.pc.toNat + n < 65536 → after.pc.toNat = before.pc.toNat + n

/-- Calls one after another with no return between them (47_jump_subroutine.md R123). -/
def callChain : List Word → State → Result
  | [], s => .next s
  | target :: rest, s => andThen (exec (.jsr target) s) (callChain rest)

/-- A host address that names a byte of memory (R37); commands with no address have nothing to check. -/
def Command.InRange : Command → Prop
  | .readByte a => a < 65536
  | .writeByte a _ => a < 65536
  | .reset => True
  | .execute _ => True

/-- The states that a host can bring a block to, from its construction, with any commands (R26, R152). -/
def Reachable (s : State) : Prop :=
  ∃ (cs : List Command) (out : List Byte), Block.commands cs .constructed = .next (.ready s, out)

end Sys2Proof.Machine
end

