-- ==== Sys2Proof/Certificates/Slice0/Obligations.lean ====
section
/-! DEFINITION. The statements for the provers. Each says which rule of spec/ it formalises; a clause that rests on a
choice (the spec's own decision D<n>, or the model's) names the entry of the assumption log. -/

open Sys2Proof Sys2Proof.Machine

/-! ## Reset -/

/-- 70_reset_and_hazards.md R150 with the table of 10_state.md R24: whatever the block was before, Reset leaves every
state element at its tabled value. The numbers 0xFFFC (log 1), 0x0100 (log 2) and the empty `diag` (log 14) are choices
of the spec. `State.reset` is what the first Reset gives. -/
def Obligations.ResetLeavesTabledState : Prop :=
  Block.command .reset .constructed = .next (.ready State.reset, none) ∧
  ∀ b : Block, ∃ t : State, Block.command .reset b = .next (.ready t, none) ∧
    t.a = 0 ∧ t.x = 0 ∧ t.y = 0 ∧ t.pc = 0xFFFC ∧ t.sp = 0x0100 ∧
    t.flags = { c := false, z := false, i := false, d := false, b := false, v := false, n := false } ∧
    (∀ a : Word, t.memRead a = 0) ∧ t.diag = []

/-- The reset state meets the invariant that every step keeps, and what no instruction changes has its reset value. That
the pointer's reset value is 0x0100 is log 2. -/
def Obligations.ResetMeetsInvariant : Prop := State.reset.Inv ∧ State.reset.NeverWritten

/-! ## Encoding -/

/-- Words written out from 30_encoding.md R50, R52, R54 and R55 decode to what they stand for: all 26 rows of R54, so
every format of R50, the operand byte after the opcode, the operand word low byte first, and a byte after a one-byte
instruction given back; and the unimplemented 0x8D, which takes no operand. The opcode values but 0xA9 are log 3, and
that 0x8D has no handler is log 4. -/
def Obligations.SpecWordsDecode : Prop :=
  decode [0xA9, 0x42] = .ok (.ldaImm 0x42, []) ∧
  decode [0xA5, 0x10] = .ok (.ldaZp 0x10, []) ∧
  decode [0xB5, 0xF0] = .ok (.ldaZpX 0xF0, []) ∧
  decode [0x69, 0x01] = .ok (.adc 0x01, []) ∧
  decode [0x29, 0x0F] = .ok (.and 0x0F, []) ∧
  decode [0xC9, 0x05] = .ok (.cmp 0x05, []) ∧
  decode [0x90, 0x04] = .ok (.bcc 0x04, []) ∧
  decode [0xB0, 0xFE] = .ok (.bcs 0xFE, []) ∧
  decode [0xF0, 0x02] = .ok (.beq 0x02, []) ∧
  decode [0xD0, 0xFC] = .ok (.bne 0xFC, []) ∧
  decode [0x30, 0x01] = .ok (.bmi 0x01, []) ∧
  decode [0x10, 0xFD] = .ok (.bpl 0xFD, []) ∧
  decode [0x50, 0x7F] = .ok (.bvc 0x7F, []) ∧
  decode [0x70, 0x80] = .ok (.bvs 0x80, []) ∧
  decode [0x18, 0x69] = .ok (.clc, [0x69]) ∧
  decode [0xD8, 0x69] = .ok (.cld, [0x69]) ∧
  decode [0x58, 0x69] = .ok (.cli, [0x69]) ∧
  decode [0xB8, 0x69] = .ok (.clv, [0x69]) ∧
  decode [0xEA, 0x69] = .ok (.nop, [0x69]) ∧
  decode [0xC6, 0x10] = .ok (.decZp 0x10, []) ∧
  decode [0xE6, 0x7F] = .ok (.inc 0x7F, []) ∧
  decode [0x48, 0x69] = .ok (.pha, [0x69]) ∧
  decode [0x68, 0x69] = .ok (.pla, [0x69]) ∧
  decode [0x20, 0x10, 0x02] = .ok (.jsr 0x0210, []) ∧
  decode [0x4C, 0x10, 0x02] = .ok (.jmp 0x0210, []) ∧
  decode [0x60, 0x69] = .ok (.rts, [0x69]) ∧
  decode [0x8D, 0x00, 0x02] = .ok (.unimpl 0x8D, [0x00, 0x02])

/-- Decode after encode is the identity, for every well-formed instruction with every operand, whatever follows it in
memory, and for every complete opcode map (00_scope.md R5: `OPC` is a parameter); the default map is complete. -/
def Obligations.DecodeAfterEncodeIsIdentity : Prop :=
  OpcComplete params.opc ∧
  ∀ p : Params, OpcComplete p.opc → ∀ (i : Instr) (rest : List Byte),
    i.wfWith p = true → decodeWith p (encodeWith p i ++ rest) = .ok (i, rest)

/-- Whatever decodes is a well-formed instruction whose encoding is exactly the bytes it was read from: every word has
one meaning. -/
def Obligations.DecodedBytesReencode : Prop :=
  ∀ (bytes rest : List Byte) (i : Instr),
    decode bytes = .ok (i, rest) → i.wf = true ∧ encode i ++ rest = bytes

/-- 30_encoding.md R53 with R50 and R56: to each opcode byte belongs one length of 1 to 3, whatever follows; that many
bytes, whatever their values, are decoded (so decoding is total, R56), and none beyond them has an influence. The last
clause, that a list with fewer bytes is rejected as `operandMissing`, is the model's own choice (log 24). -/
def Obligations.OpcodeByteAloneGivesLength : Prop :=
  ∀ op : Byte, ∃ length : Nat, 1 ≤ length ∧ length ≤ 3 ∧
    (∀ operand : List Byte, operand.length + 1 = length → ∃ i : Instr, i.length = length ∧
      ∀ rest : List Byte, decode (op :: operand ++ rest) = .ok (i, rest)) ∧
    (∀ short : List Byte, short.length + 1 < length → decode (op :: short) = .error .operandMissing)

/-- 30_encoding.md R54 to R56, for the default map (logs 3 and 4): 26 byte values have a handler, the other 230 all
decode alike, as the unimplemented opcode with no operand, and every instruction's length is that of its format's row
in R50. -/
def Obligations.EncodingSpaceIsWhole : Prop :=
  ((List.range 256).filter (fun n => (params.opc.lookup (BitVec.ofNat 8 n)).isSome)).length = 26 ∧
  ((List.range 256).filter (fun n => !(params.opc.lookup (BitVec.ofNat 8 n)).isSome)).length = 230 ∧
  (∀ (op : Byte) (rest : List Byte), params.opc.lookup op = none → decode (op :: rest) = .ok (.unimpl op, rest)) ∧
  (∀ (bytes rest : List Byte) (i : Instr), decode bytes = .ok (i, rest) →
    bytes.length = rest.length + (match i.format with
      | .imp | .imps | .u => 1
      | .imm | .zp | .zpx | .zpq | .rel => 2
      | .abs => 3))

/-! ## The step and the fetch -/

/-- A step runs the decoded instruction (40_fetch_decode_execute.md R72, R73): when the bytes at the program counter
decode to `i`, the step is `exec i` on that very state; the step adds nothing around it. That the second and third byte
are at `pc + 1` and `pc + 2` modulo 65536 is log 9, and that three bytes are looked at whatever the length is log 20. -/
def Obligations.StepRunsDecodedInstruction : Prop :=
  ∀ (s : State) (i : Instr) (rest : List Byte),
    decode [s.memRead s.pc, s.memRead (s.pc + 1), s.memRead (s.pc + 2)] = .ok (i, rest) →
      i.wf = true ∧ step s = exec i s

/-- The loop's own fetch, byte by byte with FetchByte and FetchWord and with nothing looked at ahead (R53, R60, R61,
R72, R73), reads the instruction the step runs and leaves the state that the meaning starts from. Addresses and `pc` are
modulo 65536 (log 9); the step's own look at three bytes is log 20. -/
def Obligations.FetchSequenceReadsInstruction : Prop :=
  ∀ s : State, fetchInstr s = (instrAt s, s.fetched (instrAt s).length)

/-- How a program is placed (log 19, addresses modulo 65536: log 9): the instruction whose bits are put where the next
fetch reads is the one the very next step runs, and nothing but memory is touched by putting it there. -/
def Obligations.PlacedInstructionRunsNext : Prop :=
  ∀ (s : State) (nbits w : Nat) (i : Instr), decodeTableWord nbits w = some i →
    step (s.withFetchWord nbits w) = exec i (s.withFetchWord nbits w) ∧
    s.withFetchWord nbits w = { s with mem := (s.withFetchWord nbits w).mem }

/-- 20_memory.md R43, for the fetch right after a store: the instruction it reads is made of the stored byte and, elsewhere,
of what stood in memory. That the bytes after the opcode are at `pc + 1` and `pc + 2` modulo 65536 is D14 (log 9), and
that three bytes are looked at whatever the length is log 20. -/
def Obligations.StoreIsSeenByNextFetch : Prop :=
  ∀ (s : State) (a : Word) (v : Byte),
    let seen : Word → Byte := fun b => if b = a then v else s.memRead b
    instrAt (s.memWrite a v) = assembleWith params (seen s.pc) (seen (s.pc + 1)) (seen (s.pc + 2))

/-! ## Primitives -/

/-- 20_memory.md R34: MemWrite sets the byte at its address and changes nothing else, `cyc` included; the next read of
it, by any primitive including a fetch, returns it. That FetchWord at 0xFFFF takes its high byte from 0x0000 (the last
clause at address 0) is D14 (log 9). -/
def Obligations.MemWriteSetsOneByte : Prop :=
  ∀ (s : State) (a : Word) (v : Byte),
    (s.memWrite a v).memRead a = v ∧
    (∀ b : Word, b ≠ a → (s.memWrite a v).memRead b = s.memRead b) ∧
    s.memWrite a v = { s with mem := (s.memWrite a v).mem } ∧
    (readByte a (s.memWrite a v)).1 = v ∧
    (fetchByte { s.memWrite a v with pc := a }).1 = v ∧
    lowByte (fetchWord { s.memWrite a v with pc := a }).1 = v ∧
    highByte (fetchWord { s.memWrite a v with pc := a - 1 }).1 = v

/-- FetchByte, FetchWord and ReadByte (R60 to R62), the word little-endian (20_memory.md R30), `pc` modulo 65536
(log 9). -/
def Obligations.FetchAndReadPrimitives : Prop :=
  ∀ s : State,
    fetchByte s = (s.memRead s.pc, { s with pc := s.pc + 1, cyc := s.cyc - 1 }) ∧
    (fetchWord s).1.toNat = (s.memRead s.pc).toNat + 256 * (s.memRead (s.pc + 1)).toNat ∧
    (fetchWord s).2 = { s with pc := s.pc + 2, cyc := s.cyc - 2 } ∧
    ∀ a : Word, readByte a s = (s.memRead a, { s with cyc := s.cyc - 1 })

/-- WriteWord (R63): low byte at `a`, high byte at `a + 1`, every other byte as before, cost 2; at 0xFFFF it has no
meaning and is refused (D24, log 15). -/
def Obligations.WriteWordIsLittleEndian : Prop :=
  ∀ (s : State) (a w : Word),
    (a ≠ 0xFFFF → ∃ t : State, writeWord a w s = .next t ∧
      (t.memRead a).toNat = w.toNat % 256 ∧ (t.memRead (a + 1)).toNat = w.toNat / 256 ∧
      (∀ b : Word, b ≠ a → b ≠ a + 1 → t.memRead b = s.memRead b) ∧
      t = { s with mem := t.mem, cyc := s.cyc - 2 }) ∧
    (a = 0xFFFF → writeWord a w s = .refused .wordWriteOutOfRange)

/-- 40_fetch_decode_execute.md R64: ModifySP is a reset to the opposite end of the stack page, and it is applied after
every push and every pull. That RTS applies it after each of its two pulls (R67) and JSR once after its two-byte step is
the resolution of conflict C2 (log 18). -/
def Obligations.ModifySpResetsToOppositeEnd : Prop :=
  (∀ sp : Word,
    (sp.toNat < 0x0100 → modifySp sp = 0x01FF) ∧
    (0x01FF < sp.toNat → modifySp sp = 0x0100) ∧
    (0x0100 ≤ sp.toNat → sp.toNat ≤ 0x01FF → modifySp sp = sp)) ∧
  ∀ s t : State,
    (exec .pha s = .next t → t.sp = modifySp (s.sp - 1)) ∧
    (exec .pla s = .next t → t.sp = modifySp (s.sp + 1)) ∧
    (exec .rts s = .next t → t.sp = modifySp (modifySp (s.sp + 1) + 1)) ∧
    (∀ target : Word, exec (.jsr target) s = .next t → t.sp = modifySp (s.sp - 2))

/-! ## Loads -/

/-- 41_load.md R81, LDA #: the opcode, the new accumulator, the two flags, the cost, the advance of the program
counter, and nothing else changed. -/
def Obligations.LoadImmediateResult : Prop :=
  ∀ (imm : Byte) (s : State),
    decode [0xA9, imm] = .ok (.ldaImm imm, []) ∧
    ∃ t : State, exec (.ldaImm imm) s = .next t ∧
      t = { s with
        a := imm
        flags := { s.flags with z := decide (imm = 0), n := decide (128 ≤ imm.toNat) }
        pc := t.pc
        cyc := s.cyc - 2 } ∧
      PcAdvances 2 s t

/-- 41_load.md R80, the three forms: each loads its operand, sets `Z` and `N` from the loaded byte, writes no other
register, flag or byte of memory, and the indexed form takes one cycle more than the zero-page form. A zero-page,X sum
above 0xFF is not said here but in `ZeroPageXAddressBothReadings` (log 7). -/
def Obligations.LoadsWriteOnlyAccumulatorZeroNegative : Prop :=
  ∀ s : State,
    let loads : Instr → Byte → Prop := fun i v => ∃ t : State, exec i s = .next t ∧
      t = { s with
        a := v
        flags := { s.flags with z := decide (v = 0), n := decide (128 ≤ v.toNat) }
        pc := t.pc
        cyc := t.cyc }
    (∀ imm : Byte, loads (.ldaImm imm) imm) ∧
    (∀ zp : Byte, loads (.ldaZp zp) (s.memRead (BitVec.ofNat 16 zp.toNat))) ∧
    (∀ zp : Byte, ∃ v : Byte, loads (.ldaZpX zp) v ∧
      (zp.toNat + s.x.toNat < 256 → v = s.memRead (BitVec.ofNat 16 (zp.toNat + s.x.toNat)))) ∧
    (∀ (zp : Byte) (t u : State), exec (.ldaZpX zp) s = .next t → exec (.ldaZp zp) s = .next u → t.cyc = u.cyc - 1)

/-- LDA zp and LDA zp,X whole (41_load.md R82, R83), the second under both readings of `ZPX_WRAP`: with it the sum
stays in the zero page (D12, log 7, the default), without it the sum is the address. Costs 3 and 4 rest on D11 (log 6),
`pc` modulo 65536 on D14 (log 9). -/
def Obligations.ZeroPageXAddressBothReadings : Prop :=
  ∀ (zp : Byte) (s : State),
    let after : Byte → Int → State := fun v cost =>
      { s with
        a := v
        flags := { s.flags with z := decide (v = 0), n := decide (128 ≤ v.toNat) }
        pc := s.pc + 2
        cyc := s.cyc - cost }
    exec (.ldaZp zp) s = .next (after (s.memRead (BitVec.ofNat 16 zp.toNat)) 3) ∧
    exec (.ldaZpX zp) s = .next (after (s.memRead (BitVec.ofNat 16 ((zp.toNat + s.x.toNat) % 256))) 4) ∧
    exec (.ldaZpX zp) s = execLdaZpXWith params zp s ∧
    (∀ p : Params, p.zpxWrap = true →
      execLdaZpXWith p zp s = .next (after (s.memRead (BitVec.ofNat 16 ((zp.toNat + s.x.toNat) % 256))) 4)) ∧
    (∀ p : Params, p.zpxWrap = false →
      execLdaZpXWith p zp s = .next (after (s.memRead (BitVec.ofNat 16 (zp.toNat + s.x.toNat))) 4))

/-! ## Arithmetic and flags -/

/-- ADC # (42_alu.md R86) on integers: the result is the low 8 bits of `A + imm + C`, the carry says that the sum does
not fit them, `Z` and `N` are from the low 8 bits, `V` is the source's sign-bit test. It holds for either value of `D`
(D17, log 13); `pc` is modulo 65536 (D14, log 9). -/
def Obligations.AdcResultAndFlags : Prop :=
  ∀ (imm : Byte) (s : State),
    let sum : Nat := s.a.toNat + imm.toNat + s.flags.c.toNat
    ∃ t : State, exec (.adc imm) s = .next t ∧
      t.a.toNat = sum % 256 ∧
      t.flags = { s.flags with
        c := decide (255 < sum)
        z := decide (sum % 256 = 0)
        n := decide (128 ≤ sum % 256)
        v := decide ((~~~(s.a ^^^ imm) &&& (s.a ^^^ t.a) &&& 0x80) ≠ 0) } ∧
      t = { s with a := t.a, flags := t.flags, pc := s.pc + 2, cyc := s.cyc - 2 }

/-- What ADC's overflow test means (the derivation at the end of R86's description): `V` is 1 exactly when the two
operands read as signed numbers, plus the carry, sum to something outside -128 to 127. -/
def Obligations.AdcOverflowMeansSignedOverflow : Prop :=
  ∀ (imm : Byte) (s t : State), exec (.adc imm) s = .next t →
    (t.flags.v = true ↔
      ¬ (-128 ≤ s.a.toInt + imm.toInt + s.flags.c.toNat ∧ s.a.toInt + imm.toInt + s.flags.c.toNat ≤ 127))

/-- AND # whole (42_alu.md R87), the result bit by bit; `pc` is modulo 65536 (D14, log 9). -/
def Obligations.AndResultAndFlags : Prop :=
  ∀ (imm : Byte) (s : State), ∃ t : State, exec (.and imm) s = .next t ∧
    (∀ k : Nat, t.a.getLsbD k = (s.a.getLsbD k && imm.getLsbD k)) ∧
    t.flags = { s.flags with z := decide (t.a = 0), n := t.a.getLsbD 7 } ∧
    t = { s with a := t.a, flags := t.flags, pc := s.pc + 2, cyc := s.cyc - 2 }

/-- CMP # whole (42_alu.md R88): the comparison is unsigned and `N` is bit 7 of the difference modulo 256 (D16, log 13);
the accumulator and `V` are not written; `pc` is modulo 65536 (D14, log 9). -/
def Obligations.CompareFlags : Prop :=
  ∀ (imm : Byte) (s : State),
    exec (.cmp imm) s = .next { s with
      flags := { s.flags with
        c := decide (imm.toNat ≤ s.a.toNat)
        z := decide (s.a.toNat = imm.toNat)
        n := decide (128 ≤ (s.a.toNat + (256 - imm.toNat)) % 256) }
      pc := s.pc + 2
      cyc := s.cyc - 2 }

/-- 42_alu.md R91: after every instruction that writes `Z` and `N`, they are zero and bit 7 of the byte it computed:
the new accumulator, the new byte of memory, or the difference of a compare modulo 256 (D16, log 13). The byte that INC
writes is its own operand byte (D6, log 12). -/
def Obligations.ZeroAndNegativeFollowResult : Prop :=
  ∀ (s t : State),
    let follow : Byte → Prop := fun v => t.flags.z = decide (v = 0) ∧ t.flags.n = v.getLsbD 7
    (∀ b : Byte, exec (.ldaImm b) s = .next t → follow t.a) ∧
    (∀ b : Byte, exec (.ldaZp b) s = .next t → follow t.a) ∧
    (∀ b : Byte, exec (.ldaZpX b) s = .next t → follow t.a) ∧
    (∀ b : Byte, exec (.adc b) s = .next t → follow t.a) ∧
    (∀ b : Byte, exec (.and b) s = .next t → follow t.a) ∧
    (∀ b : Byte, exec (.cmp b) s = .next t → follow (s.a - b)) ∧
    (∀ b : Byte, exec (.decZp b) s = .next t → follow (t.memRead (zpAddress b))) ∧
    (∀ b : Byte, exec (.inc b) s = .next t → follow (t.memRead (incAddress (s.pc + 2))))

/-! ## Branches -/

/-- 43_branch.md R93: each branch has its condition, reads the one flag of it (the other flags may be anything and the
outcome is the same) and writes none; it is taken, so that more than the base two cycles are charged, exactly when the
condition holds. -/
def Obligations.BranchReadsOneFlagWritesNone : Prop :=
  ∀ (off : Byte) (s : State) (f : Flags) (row : Instr × Bool),
    row ∈ branchRows off s.flags → row ∈ branchRows off f →
    ∃ t : State, exec row.1 s = .next t ∧ exec row.1 { s with flags := f } = .next { t with flags := f } ∧
      t.flags = s.flags ∧ (t.cyc = s.cyc - 2 ↔ row.2 = false)

/-- 43_branch.md R94 to R102, on integers: not taken, the offset is stepped over at cost 2; taken, the target is the
opcode's address plus 2 plus the signed offset, modulo 65536 (D14, log 9), at cost 3, or 4 when its page is another
than the next instruction's. -/
def Obligations.BranchTargetAndCost : Prop :=
  ∀ (off : Byte) (s : State) (row : Instr × Bool), row ∈ branchRows off s.flags →
    (row.2 = false → exec row.1 s = .next { s with pc := s.pc + 2, cyc := s.cyc - 2 }) ∧
    (row.2 = true → ∃ t : State, exec row.1 s = .next t ∧
      (t.pc.toNat : Int) = ((s.pc.toNat : Int) + 2 + off.toInt) % 65536 ∧
      t.cyc = s.cyc - (if t.pc.toNat / 256 = (s.pc.toNat + 2) % 65536 / 256 then 3 else 4) ∧
      t = { s with pc := t.pc, cyc := t.cyc })

/-- 30_encoding.md R57's relative form: where the label is -128 to 127 bytes from the next instruction, a taken branch
with the operand byte the spec gives goes to the label, for each of the eight; at the end of the address space modulo
65536 (D14, log 9). -/
def Obligations.AssembledBranchReachesLabel : Prop :=
  ∀ (s : State) (label : Word) (row : Instr × Bool),
    -128 ≤ (label.toNat : Int) - (s.pc.toNat + 2) → (label.toNat : Int) - (s.pc.toNat + 2) ≤ 127 →
    row ∈ branchRows (relOperand s.pc label) s.flags → row.2 = true →
    ∃ t : State, exec row.1 s = .next t ∧ t.pc = label

/-! ## Flag clears and no-operation -/

/-- 44_flag_clear_nop.md R104 to R107: each clears its own flag, costs one cycle, advances by one (modulo 65536, D14,
log 9) and changes nothing else. -/
def Obligations.FlagClearResults : Prop :=
  ∀ s : State,
    exec .clc s = .next { s with flags := { s.flags with c := false }, pc := s.pc + 1, cyc := s.cyc - 1 } ∧
    exec .cld s = .next { s with flags := { s.flags with d := false }, pc := s.pc + 1, cyc := s.cyc - 1 } ∧
    exec .cli s = .next { s with flags := { s.flags with i := false }, pc := s.pc + 1, cyc := s.cyc - 1 } ∧
    exec .clv s = .next { s with flags := { s.flags with v := false }, pc := s.pc + 1, cyc := s.cyc - 1 }

/-- 44_flag_clear_nop.md R108 under every reading of `NOP_EXTRA_PC`: the counter ends that many bytes beyond the
opcode, at cost one, and nothing else changes; by default two bytes after the opcode (D7, C6, log 5), modulo 65536
(D14, log 9). -/
def Obligations.NopAdvancesOnly : Prop :=
  (∀ (p : Params) (s : State),
    execNopWith p s = .next { s with pc := BitVec.ofNat 16 (s.pc.toNat + 1 + p.nopExtraPc), cyc := s.cyc - 1 }) ∧
  ∀ s : State, exec .nop s = execNopWith params s ∧
    exec .nop s = .next { s with pc := BitVec.ofNat 16 (s.pc.toNat + 2), cyc := s.cyc - 1 }

/-! ## Memory read-modify-write -/

/-- DEC zp whole (45_memory_rmw.md R111): the byte at the zero-page address goes down by one modulo 256 (D16, log 13),
`Z` and `N` are from the new byte, every other byte and everything else but `pc` and `cyc` is unchanged; cost 5 (D8,
log 6), `pc` modulo 65536 (D14, log 9). -/
def Obligations.DecrementZeroPage : Prop :=
  ∀ (zp : Byte) (s : State), ∃ t : State, exec (.decZp zp) s = .next t ∧
    (zpAddress zp).toNat = zp.toNat ∧
    (t.memRead (zpAddress zp)).toNat = ((s.memRead (zpAddress zp)).toNat + 255) % 256 ∧
    (∀ a : Word, a ≠ zpAddress zp → t.memRead a = s.memRead a) ∧
    t.flags = { s.flags with
      z := decide (t.memRead (zpAddress zp) = 0)
      n := decide (128 ≤ (t.memRead (zpAddress zp)).toNat) } ∧
    t = { s with mem := t.mem, flags := t.flags, pc := s.pc + 2, cyc := s.cyc - 5 }

/-- INC whole (45_memory_rmw.md R112, the quirk form, D6, log 12): the byte that goes up by one, modulo 256 (D16, log 13),
is the one right after the opcode, whatever operand was decoded; cost 5 (D8, log 6), `pc` modulo 65536 (D14, log 9). -/
def Obligations.IncrementOwnOperandByte : Prop :=
  ∀ (operand : Byte) (s : State), ∃ t : State, exec (.inc operand) s = .next t ∧
    incAddress (s.pc + 2) = s.pc + 1 ∧
    (t.memRead (incAddress (s.pc + 2))).toNat = ((s.memRead (s.pc + 1)).toNat + 1) % 256 ∧
    (∀ a : Word, a ≠ incAddress (s.pc + 2) → t.memRead a = s.memRead a) ∧
    t.flags = { s.flags with
      z := decide (t.memRead (incAddress (s.pc + 2)) = 0)
      n := decide (128 ≤ (t.memRead (incAddress (s.pc + 2))).toNat) } ∧
    t = { s with mem := t.mem, flags := t.flags, pc := s.pc + 2, cyc := s.cyc - 5 }

/-- "Each time the same INC instruction executes, its operand byte goes up by one" (R112, with R43): when a program
comes back to an INC it finds an INC with the next operand. That INC increments its own operand byte is D6 (log 12),
that 0xFF goes to 0x00 is D16 (log 13). -/
def Obligations.IncrementChangesItsOwnCode : Prop :=
  ∀ (operand : Byte) (s : State), instrAt s = .inc operand →
    ∃ t : State, step s = .next t ∧
      ∀ u : State, u.pc = s.pc → u.mem = t.mem → instrAt u = .inc (operand + 1)

/-! ## The stack -/

/-- PHA whole (46_stack.md R115): the pointer goes down by one, or from the bottom of its page to the top, the
accumulator is stored there, the byte after the opcode is stepped over, cost 4 (D8, log 6), `pc` modulo 65536 (D14,
log 9). -/
def Obligations.PushAccumulatorResult : Prop :=
  ∀ s : State, s.SpInPage → ∃ t : State, exec .pha s = .next t ∧
    t.sp = pushAddress s.sp ∧
    t.sp.toNat = (if s.sp.toNat = 0x0100 then 0x01FF else s.sp.toNat - 1) ∧
    t.memRead (pushAddress s.sp) = s.a ∧
    (∀ a : Word, a ≠ pushAddress s.sp → t.memRead a = s.memRead a) ∧
    t = { s with sp := t.sp, mem := t.mem, pc := s.pc + 2, cyc := s.cyc - 4 }

/-- PLA whole (46_stack.md R116): the accumulator takes the byte at the pointer, the pointer goes up by one or from the
top of its page to the bottom, the byte after the opcode is stepped over, memory is not written. No flag is written
(D13, log 8); under the other reading of `PLA_SETS_NZ` `Z` and `N` are set from the byte. Cost 4 is D8 (log 6), `pc`
modulo 65536 D14 (log 9). -/
def Obligations.PullAccumulatorResult : Prop :=
  ∀ s : State, s.SpInPage →
    let pulled : Word := BitVec.ofNat 16 (if s.sp.toNat = 0x01FF then 0x0100 else s.sp.toNat + 1)
    exec .pla s = .next { s with a := s.memRead s.sp, sp := pulled, pc := s.pc + 2, cyc := s.cyc - 4 } ∧
    exec .pla s = execPlaWith params s ∧
    (∀ p : Params, p.plaSetsNZ = false → execPlaWith p s = .next { s with
      a := s.memRead s.sp
      sp := pulled
      pc := s.pc + 2
      cyc := s.cyc - 1 - p.costPushPull }) ∧
    (∀ p : Params, p.plaSetsNZ = true → execPlaWith p s = .next { s with
      a := s.memRead s.sp
      flags := { s.flags with z := decide (s.memRead s.sp = 0), n := decide (128 ≤ (s.memRead s.sp).toNat) }
      sp := pulled
      pc := s.pc + 2
      cyc := s.cyc - 1 - p.costPushPull })

/-- PHA followed by PLA gives the accumulator and the pointer back for every pointer in the page (R66, R116), whatever
happens between them to anything but the pointer and the pushed byte. -/
def Obligations.PushThenPullRestores : Prop :=
  ∀ s : State, s.SpInPage → ∃ t : State, exec .pha s = .next t ∧
    ∀ u : State, u.sp = t.sp → u.memRead u.sp = t.memRead t.sp →
      ∃ v : State, exec .pla u = .next v ∧ v.a = s.a ∧ v.sp = s.sp

/-! ## Jumps and calls -/

/-- JSR whole (47_jump_subroutine.md R119, with the table of its corner cases): the word stored is the address of the
last byte of the JSR (C1, log 18), modulo 65536 (D14, log 9), at the old pointer less 2 and less 1 with no wrap (C5,
log 18), the pointer goes down by two or to the top of its page, cost 5 (D10, log 6). -/
def Obligations.JumpToSubroutineResult : Prop :=
  ∀ (target : Word) (s : State), s.SpInPage → ∃ t : State, exec (.jsr target) s = .next t ∧
    (jsrAddress s.sp).toNat = s.sp.toNat - 2 ∧
    (t.memRead (jsrAddress s.sp)).toNat = (s.pc + 2).toNat % 256 ∧
    (t.memRead (jsrAddress s.sp + 1)).toNat = (s.pc + 2).toNat / 256 ∧
    (∀ a : Word, a ≠ jsrAddress s.sp → a ≠ jsrAddress s.sp + 1 → t.memRead a = s.memRead a) ∧
    t.sp.toNat = (if s.sp.toNat ≤ 0x0101 then 0x01FF else s.sp.toNat - 2) ∧
    t = { s with mem := t.mem, sp := t.sp, pc := target, cyc := s.cyc - 5 }

/-- JMP whole (47_jump_subroutine.md R120). -/
def Obligations.AbsoluteJumpResult : Prop :=
  ∀ (target : Word) (s : State), exec (.jmp target) s = .next { s with pc := target, cyc := s.cyc - 4 }

/-- RTS whole (47_jump_subroutine.md R121, R67): low byte from the pointer, high byte from the next stack position,
the pointer wrapped after each pull (C2, log 18), `pc` the word plus one modulo 65536 (D14, log 9), cost 4 (D9,
log 6). -/
def Obligations.ReturnFromSubroutineResult : Prop :=
  ∀ s : State, s.SpInPage → ∃ t : State, exec .rts s = .next t ∧
    (let second : Nat := if s.sp.toNat = 0x01FF then 0x0100 else s.sp.toNat + 1
     t.pc.toNat = ((s.memRead s.sp).toNat + 256 * (s.memRead (BitVec.ofNat 16 second)).toNat + 1) % 65536 ∧
     t.sp.toNat = if second = 0x01FF then 0x0100 else second + 1) ∧
    t = { s with pc := t.pc, sp := t.sp, cyc := s.cyc - 4 }

/-- 47_jump_subroutine.md R122: a call made with the pointer in 0x0102 to 0x01FF, and a return that finds the pointer
and the two bytes at it as the call left them, comes back to the instruction after the call (modulo 65536, D14, log 9)
with the pointer it had. It rests on C1 (log 18). -/
def Obligations.CallThenReturnComesBack : Prop :=
  ∀ (target : Word) (s : State), 0x0102 ≤ s.sp.toNat → s.sp.toNat ≤ 0x01FF →
    ∃ t : State, exec (.jsr target) s = .next t ∧
      ∀ u : State, u.sp = t.sp → u.memRead u.sp = t.memRead t.sp → u.memRead (u.sp + 1) = t.memRead (t.sp + 1) →
        ∃ v : State, exec .rts u = .next v ∧ v.pc = s.pc + 3 ∧ v.sp = s.sp

/-- Hazard H1 (R119's table, 70_reset_and_hazards.md R155, C3): a call made with the pointer at 0x0100 or 0x0101 stores
its word outside or across the stack page, unwrapped (C5, log 18), and leaves the pointer at 0x01FF; the return that
follows at once takes its low byte from 0x01FF, which the call did not write, and its high byte from 0x0100, the pointer
wrapped between the two pulls (C2, log 18). Whether it comes back then depends on what stood there. The word stored is
C1 (log 18); `pc` is modulo 65536 (D14, log 9). -/
def Obligations.CallAtPageBottomLosesReturn : Prop :=
  ∀ (target : Word) (s : State), s.sp = 0x0100 ∨ s.sp = 0x0101 →
    ∃ t : State, exec (.jsr target) s = .next t ∧ t.sp = 0x01FF ∧
      (s.sp = 0x0100 → t.memRead 0x00FE = lowByte (s.pc + 2) ∧ t.memRead 0x00FF = highByte (s.pc + 2) ∧
        t.memRead 0x0100 = s.memRead 0x0100) ∧
      (s.sp = 0x0101 → t.memRead 0x00FF = lowByte (s.pc + 2) ∧ t.memRead 0x0100 = highByte (s.pc + 2)) ∧
      ∃ v : State, exec .rts t = .next v ∧ v.sp = 0x0101 ∧
        v.pc = wordOf (t.memRead 0x0100) (s.memRead 0x01FF) + 1

/-- 47_jump_subroutine.md R123: from 0x01FF, up to 127 nested calls each take two bytes, so the 127th leaves the
pointer at 0x0101. That JSR makes one two-byte step is C2 (log 18). -/
def Obligations.NestedCallsDescendTheStack : Prop :=
  ∀ (targets : List Word) (s : State), s.sp = 0x01FF → targets.length ≤ 127 →
    ∃ t : State, callChain targets s = .next t ∧ t.sp.toNat = 0x01FF - 2 * targets.length

/-! ## Unimplemented opcodes, and what stops -/

/-- 48_unimplemented.md R124: a byte with no handler is reported, costs one cycle, takes no operand byte, and changes
nothing but the trace, `pc` and `cyc`. That the report is the opcode byte appended to a trace is D20 (log 14), and which
bytes have no handler is logs 3 and 4. -/
def Obligations.UnimplementedOpcodeReports : Prop :=
  ∀ (op : Byte) (s : State),
    (∀ rest : List Byte, params.opc.lookup op = none → decode (op :: rest) = .ok (.unimpl op, rest)) ∧
    ∃ t : State, exec (.unimpl op) s = .next t ∧
      t = { s with diag := s.diag ++ [op], pc := t.pc, cyc := s.cyc - 1 } ∧
      PcAdvances 1 s t

/-- Nothing stops but a stack instruction that starts with its pointer outside the page (93_implementation_defined.md
U9, log 15), and it stops under that name. -/
def Obligations.OnlyAStrayStackPointerStops : Prop :=
  ∀ (i : Instr) (s : State),
    ((¬ ∃ t : State, exec i s = .next t) ↔
      ¬ s.SpInPage ∧ (i = .pha ∨ i = .pla ∨ i = .rts ∨ ∃ target : Word, i = .jsr target)) ∧
    ∀ why : Refusal, exec i s = .refused why → why = .stackPointerOutsidePage

/-! ## Frames -/

/-- The registers (10_state.md R10, R12, R21): no instruction writes X or Y; only LDA, ADC, AND and PLA write A; only
PHA, PLA, JSR and RTS move the pointer; only an unimplemented opcode adds to the trace (what it adds is D20, log 14). -/
def Obligations.RegisterFrame : Prop :=
  ∀ (i : Instr) (s t : State), exec i s = .next t →
    t.x = s.x ∧ t.y = s.y ∧
    ((∀ b : Byte, i ≠ .ldaImm b ∧ i ≠ .ldaZp b ∧ i ≠ .ldaZpX b ∧ i ≠ .adc b ∧ i ≠ .and b) → i ≠ .pla → t.a = s.a) ∧
    (i ≠ .pha → i ≠ .pla → i ≠ .rts → (∀ w : Word, i ≠ .jsr w) → t.sp = s.sp) ∧
    ((∀ b : Byte, i ≠ .unimpl b) → t.diag = s.diag)

/-- The flags (10_state.md R13's table of writers): each is unchanged but by the instructions named for it, and none
writes B. PLA's writing none is D13 (log 8). -/
def Obligations.FlagFrame : Prop :=
  ∀ (i : Instr) (s t : State), exec i s = .next t →
    ((∀ b : Byte, i ≠ .adc b ∧ i ≠ .cmp b) → i ≠ .clc → t.flags.c = s.flags.c) ∧
    ((∀ b : Byte, i ≠ .ldaImm b ∧ i ≠ .ldaZp b ∧ i ≠ .ldaZpX b ∧ i ≠ .and b ∧ i ≠ .adc b ∧ i ≠ .decZp b ∧
        i ≠ .inc b ∧ i ≠ .cmp b) → t.flags.z = s.flags.z ∧ t.flags.n = s.flags.n) ∧
    ((∀ b : Byte, i ≠ .adc b) → i ≠ .clv → t.flags.v = s.flags.v) ∧
    (i ≠ .cli → t.flags.i = s.flags.i) ∧
    (i ≠ .cld → t.flags.d = s.flags.d) ∧
    t.flags.b = s.flags.b

/-- Memory (20_memory.md R35, the writes of its table): every byte but those at the addresses an instruction stores to
reads as before, and only DEC, INC, PHA and JSR store at all. INC's address is D6 (log 12), JSR's unwrapped two are C5
(log 18). -/
def Obligations.MemoryFrame : Prop :=
  ∀ (i : Instr) (s t : State), exec i s = .next t →
    (∀ a : Word, a ∉ storeAddresses i s → t.memRead a = s.memRead a) ∧
    ((∀ b : Byte, i ≠ .decZp b ∧ i ≠ .inc b) → i ≠ .pha → (∀ w : Word, i ≠ .jsr w) → t.mem = s.mem)

/-- The program counter (10_state.md R11, 30_encoding.md R50's last column): every instruction but a branch, JSR, JMP
and RTS leaves it after its fetched bytes, and one more for the three that skip a byte; modulo 65536 (D14, log 9), NOP's
skip is D7 (log 5). -/
def Obligations.ProgramCounterAdvance : Prop :=
  ∀ (i : Instr) (s t : State), exec i s = .next t → i.format ≠ .rel → i.format ≠ .abs → i ≠ .rts →
    t.pc.toNat = (s.pc.toNat + i.length + (if i.format = .imps then 1 else 0)) % 65536

/-! ## Tables of the whole machine -/

/-- 70_reset_and_hazards.md R160: what every instruction takes from `cyc` is the total of the table, 1 to 5. The totals
that rest on D8 to D11 are log 6; a branch's target is modulo 65536 (D14, log 9). -/
def Obligations.CycleCostsAreTabled : Prop :=
  ∀ (i : Instr) (s t : State), exec i s = .next t →
    t.cyc = s.cyc - cycleCost i s ∧ 1 ≤ cycleCost i s ∧ cycleCost i s ≤ 5

/-- 20_memory.md R35, the reads of its table: a step depends on no byte of memory but those it is listed to read, its own
bytes among them. Two states that differ in memory only, and agree at those addresses, step alike, and their memories
then agree wherever they agreed before or a store was made. The table rests on D25 (log 20, order), D12 (log 7,
zero-page,X), D6 (log 12, INC), D7 (log 5, the byte NOP steps over), C2 and C5 (log 18, RTS's second read and JSR's
stores) and D14 (log 9, addresses modulo 65536). -/
def Obligations.StepReadsOnlyListedBytes : Prop :=
  ∀ (s t : State) (m : Memory),
    (∀ a : Word, a ∈ readAddresses (instrAt s) s → State.memRead { s with mem := m } a = s.memRead a) →
    step s = .next t →
    ∃ u : State, step { s with mem := m } = .next u ∧ u = { t with mem := u.mem } ∧
      ∀ a : Word, a ∈ storeAddresses (instrAt s) s ∨ State.memRead { s with mem := m } a = s.memRead a →
        u.memRead a = t.memRead a

/-- No rule reads `cyc` (R160) or `diag` (10_state.md R21): whatever they are, an instruction does the same to
everything else, takes the same cycles and makes the same report. What `diag` holds is D20 (log 14). -/
def Obligations.CyclesAndTraceInfluenceNothing : Prop :=
  ∀ (i : Instr) (s t : State) (c : Int) (d : List Byte), exec i s = .next t →
    ∃ reports : List Byte, t.diag = s.diag ++ reports ∧
      exec i { s with cyc := c, diag := d } = .next { t with cyc := c - (s.cyc - t.cyc), diag := d ++ reports }

/-! ## Invariants -/

/-- Every step keeps the invariant, from every state that has it: the stack pointer stays in its page (10_state.md R12)
and the memory list stays canonical. -/
def Obligations.StepKeepsInvariant : Prop :=
  ∀ s t : State, s.Inv → step s = .next t → t.Inv

/-- No instruction stops the loop (60_exceptions.md R130): from every state whose pointer is in its page (R12) the step
gives a next state, with less budget (R74). -/
def Obligations.StepAlwaysGoesOn : Prop :=
  ∀ s : State, s.SpInPage → ∃ t : State, step s = .next t ∧ t.SpInPage ∧ t.cyc < s.cyc

/-! ## Execute and the host's commands -/

/-- Execute always returns (40_fetch_decode_execute.md R74, R75): with a budget of 1 or more it ends at zero or below
by at most the four cycles of the overrun, and with none it changes nothing but the counter. That the budget is an
integer with no width is D15 (log 10); the bound 4 is the dearest row of the cost table less 1, which rests on D8 to D11
(log 6). -/
def Obligations.ExecuteReturnsWithBoundedOverrun : Prop :=
  ∀ (budget : Int) (s : State), s.SpInPage →
    (1 ≤ budget → ∃ t : State, execute budget s = .next t ∧ t.SpInPage ∧ -4 ≤ t.cyc ∧ t.cyc ≤ 0) ∧
    (budget ≤ 0 → execute budget s = .next { s with cyc := budget })

/-- Execute is the loop of R72: with budget left it is one instruction and then Execute with what that instruction
left; the test is made between instructions only (log 11), on an integer (D15, log 10). (`{ t with cyc := t.cyc }` is
`t`.) -/
def Obligations.ExecuteUnfoldsAsLoop : Prop :=
  ∀ (budget : Int) (s : State), s.SpInPage → 0 < budget →
    ∃ t : State, step { s with cyc := budget } = .next t ∧ execute budget s = execute t.cyc t

/-- A host can single-step (60_exceptions.md R142): Execute(1) is exactly one step, the step being one instruction
(log 11). -/
def Obligations.ExecuteOneIsOneStep : Prop :=
  ∀ s : State, s.SpInPage → execute 1 s = step { s with cyc := 1 }

/-- Neither command can fail (R70) and every host access in range is served (R26): any list of commands with addresses
in range, issued after a first Reset, is carried out whole. Each is one transaction (logs 21 and 22). -/
def Obligations.CommandsAfterResetNeverFail : Prop :=
  ∀ cs : List Command, (∀ c ∈ cs, c.InRange) →
    ∃ (s : State) (out : List Byte), Block.commands (.reset :: cs) .constructed = .next (.ready s, out)

/-- In every state a host can bring the block to, by any commands: the invariant holds, X and Y are zero (10_state.md
R10) and I, D and B are clear (R13). The step alone, from every state, is `StepKeepsResetFacts`; one command,
`CommandIsServedAndKeepsFacts`. What the block does before the first Reset is log 17. -/
def Obligations.ReachableStatesKeepResetFacts : Prop :=
  ∀ s : State, Reachable s → s.Inv ∧ s.NeverWritten

/-- Before the first Reset nothing has a value (R25, U3, log 17): Execute and a read are refused by name. -/
def Obligations.NothingRunsBeforeReset : Prop :=
  (∀ budget : Int, Block.command (.execute budget) .constructed = .refused .beforeFirstReset) ∧
  (∀ a : Nat, a < 65536 → Block.command (.readByte a) .constructed = .refused .beforeFirstReset)

/-- The host's memory access (10_state.md R26, 20_memory.md R37): a byte written in range is read back by the host and
by the core, every other byte and everything else is as before; out of range both are refused (U1, log 17). -/
def Obligations.HostMemoryAccess : Prop :=
  ∀ (s : State) (a : Nat) (v : Byte),
    (a < 65536 → ∃ t : State, Block.command (.writeByte a v) (.ready s) = .next (.ready t, none) ∧
      t = { s with mem := t.mem } ∧ t.memRead (BitVec.ofNat 16 a) = v ∧
      Block.command (.readByte a) (.ready t) = .next (.ready t, some v) ∧
      ∀ b : Nat, b < 65536 → b ≠ a →
        Block.command (.readByte b) (.ready t) = .next (.ready t, some (s.memRead (BitVec.ofNat 16 b)))) ∧
    (65536 ≤ a →
      Block.command (.writeByte a v) (.ready s) = .refused .hostAddressOutOfRange ∧
      Block.command (.readByte a) (.ready s) = .refused .hostAddressOutOfRange)

/-! ## The invariant with the reset facts, one step and one command -/

/-- Every step keeps the invariant together with what no instruction changes from its reset value, from every state that
has both: the pointer in its page (10_state.md R12), canonical memory, `X = Y = 0` (R10) and `I = D = B = 0` (R13). -/
def Obligations.StepKeepsResetFacts : Prop :=
  ∀ s t : State, s.Inv → s.NeverWritten → step s = .next t → t.Inv ∧ t.NeverWritten

/-- From every ready state with the invariant, each command with its address in range (R26, R70) is served, leaves the
block ready with the invariant, and keeps the reset facts (R10, R13); a read answers a byte, the others answer none. A
command is one transaction (logs 21 and 22); Reset's pointer is log 2. -/
def Obligations.CommandIsServedAndKeepsFacts : Prop :=
  ∀ (c : Command) (s : State), s.Inv → c.InRange →
    ∃ (t : State) (out : Option Byte), Block.command c (.ready s) = .next (.ready t, out) ∧
      t.Inv ∧ (s.NeverWritten → t.NeverWritten) ∧
      (out.isSome = true ↔ ∃ a : Nat, c = .readByte a)
end

