-- ==== Sys2Proof/Laws/Commands.lean ====
section
/-! SUPPORT. The execute loop turn by turn (40_fetch_decode_execute.md R72). -/

namespace Sys2Proof.Machine

theorem executeLoop_idle (fuel : Nat) (s : State) (h : s.cyc ≤ 0) : executeLoop fuel s = .next s := by
  cases fuel with
  | zero => rfl
  | succ n => exact if_neg (by omega)

theorem executeLoop_turn (fuel : Nat) (s : State) (h : 0 < s.cyc) :
    executeLoop (fuel + 1) s = andThen (step s) (executeLoop fuel) := if_pos h

theorem replyState_next (r : Result) (b : Block) (out : Option Byte) (h : replyState r = .next (b, out)) :
    ∃ s, r = .next s ∧ b = .ready s ∧ out = none := by
  cases r with
  | next s => cases h; exact ⟨s, rfl, rfl, rfl⟩
  | fault f => cases f
  | refused why => cases h

end Sys2Proof.Machine
end

