-- ==== Sys2Proof/Laws/State.lean ====
section
/-! SUPPORT. One lemma per field per update of the state, true by definition, so that no later proof unfolds a record
update. -/

namespace Sys2Proof.Machine

/-! ### fetched -/

@[simp] theorem fetched_a (n : Nat) (s : State) : (s.fetched n).a = s.a := rfl
@[simp] theorem fetched_x (n : Nat) (s : State) : (s.fetched n).x = s.x := rfl
@[simp] theorem fetched_y (n : Nat) (s : State) : (s.fetched n).y = s.y := rfl
@[simp] theorem fetched_pc (n : Nat) (s : State) : (s.fetched n).pc = s.pc + BitVec.ofNat 16 n := rfl
@[simp] theorem fetched_sp (n : Nat) (s : State) : (s.fetched n).sp = s.sp := rfl
@[simp] theorem fetched_flags (n : Nat) (s : State) : (s.fetched n).flags = s.flags := rfl
@[simp] theorem fetched_cyc (n : Nat) (s : State) : (s.fetched n).cyc = s.cyc - n := rfl
@[simp] theorem fetched_mem (n : Nat) (s : State) : (s.fetched n).mem = s.mem := rfl
@[simp] theorem fetched_diag (n : Nat) (s : State) : (s.fetched n).diag = s.diag := rfl

/-! ### advance -/

@[simp] theorem advance_a (n : Nat) (s : State) : (s.advance n).a = s.a := rfl
@[simp] theorem advance_x (n : Nat) (s : State) : (s.advance n).x = s.x := rfl
@[simp] theorem advance_y (n : Nat) (s : State) : (s.advance n).y = s.y := rfl
@[simp] theorem advance_pc (n : Nat) (s : State) : (s.advance n).pc = s.pc + BitVec.ofNat 16 n := rfl
@[simp] theorem advance_sp (n : Nat) (s : State) : (s.advance n).sp = s.sp := rfl
@[simp] theorem advance_flags (n : Nat) (s : State) : (s.advance n).flags = s.flags := rfl
@[simp] theorem advance_cyc (n : Nat) (s : State) : (s.advance n).cyc = s.cyc := rfl
@[simp] theorem advance_mem (n : Nat) (s : State) : (s.advance n).mem = s.mem := rfl
@[simp] theorem advance_diag (n : Nat) (s : State) : (s.advance n).diag = s.diag := rfl

/-! ### charge -/

@[simp] theorem charge_a (n : Nat) (s : State) : (s.charge n).a = s.a := rfl
@[simp] theorem charge_x (n : Nat) (s : State) : (s.charge n).x = s.x := rfl
@[simp] theorem charge_y (n : Nat) (s : State) : (s.charge n).y = s.y := rfl
@[simp] theorem charge_pc (n : Nat) (s : State) : (s.charge n).pc = s.pc := rfl
@[simp] theorem charge_sp (n : Nat) (s : State) : (s.charge n).sp = s.sp := rfl
@[simp] theorem charge_flags (n : Nat) (s : State) : (s.charge n).flags = s.flags := rfl
@[simp] theorem charge_cyc (n : Nat) (s : State) : (s.charge n).cyc = s.cyc - n := rfl
@[simp] theorem charge_mem (n : Nat) (s : State) : (s.charge n).mem = s.mem := rfl
@[simp] theorem charge_diag (n : Nat) (s : State) : (s.charge n).diag = s.diag := rfl

/-! ### memWrite -/

@[simp] theorem memWrite_a (w : Word) (v : Byte) (s : State) : (s.memWrite w v).a = s.a := rfl
@[simp] theorem memWrite_x (w : Word) (v : Byte) (s : State) : (s.memWrite w v).x = s.x := rfl
@[simp] theorem memWrite_y (w : Word) (v : Byte) (s : State) : (s.memWrite w v).y = s.y := rfl
@[simp] theorem memWrite_pc (w : Word) (v : Byte) (s : State) : (s.memWrite w v).pc = s.pc := rfl
@[simp] theorem memWrite_sp (w : Word) (v : Byte) (s : State) : (s.memWrite w v).sp = s.sp := rfl
@[simp] theorem memWrite_flags (w : Word) (v : Byte) (s : State) : (s.memWrite w v).flags = s.flags := rfl
@[simp] theorem memWrite_cyc (w : Word) (v : Byte) (s : State) : (s.memWrite w v).cyc = s.cyc := rfl
@[simp] theorem memWrite_mem (w : Word) (v : Byte) (s : State) : (s.memWrite w v).mem = s.mem.write w.toNat v := rfl
@[simp] theorem memWrite_diag (w : Word) (v : Byte) (s : State) : (s.memWrite w v).diag = s.diag := rfl

/-! ### loadA -/

@[simp] theorem loadA_a (v : Byte) (s : State) : (loadA v s).a = v := rfl
@[simp] theorem loadA_x (v : Byte) (s : State) : (loadA v s).x = s.x := rfl
@[simp] theorem loadA_y (v : Byte) (s : State) : (loadA v s).y = s.y := rfl
@[simp] theorem loadA_pc (v : Byte) (s : State) : (loadA v s).pc = s.pc := rfl
@[simp] theorem loadA_sp (v : Byte) (s : State) : (loadA v s).sp = s.sp := rfl
@[simp] theorem loadA_flags (v : Byte) (s : State) : (loadA v s).flags = s.flags.setZN v := rfl
@[simp] theorem loadA_cyc (v : Byte) (s : State) : (loadA v s).cyc = s.cyc := rfl
@[simp] theorem loadA_mem (v : Byte) (s : State) : (loadA v s).mem = s.mem := rfl
@[simp] theorem loadA_diag (v : Byte) (s : State) : (loadA v s).diag = s.diag := rfl

/-! ### report -/

@[simp] theorem report_a (op : Byte) (s : State) : (report op s).a = s.a := rfl
@[simp] theorem report_x (op : Byte) (s : State) : (report op s).x = s.x := rfl
@[simp] theorem report_y (op : Byte) (s : State) : (report op s).y = s.y := rfl
@[simp] theorem report_pc (op : Byte) (s : State) : (report op s).pc = s.pc := rfl
@[simp] theorem report_sp (op : Byte) (s : State) : (report op s).sp = s.sp := rfl
@[simp] theorem report_flags (op : Byte) (s : State) : (report op s).flags = s.flags := rfl
@[simp] theorem report_cyc (op : Byte) (s : State) : (report op s).cyc = s.cyc := rfl
@[simp] theorem report_mem (op : Byte) (s : State) : (report op s).mem = s.mem := rfl
@[simp] theorem report_diag (op : Byte) (s : State) : (report op s).diag = s.diag ++ [op] := rfl

/-! ### push -/

@[simp] theorem push_a (v : Byte) (s : State) : (push v s).a = s.a := rfl
@[simp] theorem push_x (v : Byte) (s : State) : (push v s).x = s.x := rfl
@[simp] theorem push_y (v : Byte) (s : State) : (push v s).y = s.y := rfl
@[simp] theorem push_pc (v : Byte) (s : State) : (push v s).pc = s.pc := rfl
@[simp] theorem push_sp (v : Byte) (s : State) : (push v s).sp = pushAddress s.sp := rfl
@[simp] theorem push_flags (v : Byte) (s : State) : (push v s).flags = s.flags := rfl
@[simp] theorem push_cyc (v : Byte) (s : State) : (push v s).cyc = s.cyc := rfl
@[simp] theorem push_mem (v : Byte) (s : State) : (push v s).mem = s.mem.write (pushAddress s.sp).toNat v := rfl
@[simp] theorem push_diag (v : Byte) (s : State) : (push v s).diag = s.diag := rfl

/-! ### modifyByte -/

@[simp] theorem modifyByte_a (f : Byte → Byte) (w : Word) (s : State) : (modifyByte f w s).a = s.a := rfl
@[simp] theorem modifyByte_x (f : Byte → Byte) (w : Word) (s : State) : (modifyByte f w s).x = s.x := rfl
@[simp] theorem modifyByte_y (f : Byte → Byte) (w : Word) (s : State) : (modifyByte f w s).y = s.y := rfl
@[simp] theorem modifyByte_pc (f : Byte → Byte) (w : Word) (s : State) : (modifyByte f w s).pc = s.pc := rfl
@[simp] theorem modifyByte_sp (f : Byte → Byte) (w : Word) (s : State) : (modifyByte f w s).sp = s.sp := rfl
@[simp] theorem modifyByte_flags (f : Byte → Byte) (w : Word) (s : State) : (modifyByte f w s).flags = s.flags.setZN (f (s.memRead w)) := rfl
@[simp] theorem modifyByte_cyc (f : Byte → Byte) (w : Word) (s : State) : (modifyByte f w s).cyc = s.cyc := rfl
@[simp] theorem modifyByte_mem (f : Byte → Byte) (w : Word) (s : State) : (modifyByte f w s).mem = s.mem.write w.toNat (f (s.memRead w)) := rfl
@[simp] theorem modifyByte_diag (f : Byte → Byte) (w : Word) (s : State) : (modifyByte f w s).diag = s.diag := rfl

/-! ### reading a byte through an update that leaves memory alone -/

@[simp] theorem memRead_fetched (n : Nat) (s : State) (a : Word) : (s.fetched n).memRead a = s.memRead a := rfl
@[simp] theorem memRead_advance (n : Nat) (s : State) (a : Word) : (s.advance n).memRead a = s.memRead a := rfl
@[simp] theorem memRead_charge (n : Nat) (s : State) (a : Word) : (s.charge n).memRead a = s.memRead a := rfl
@[simp] theorem memRead_loadA (v : Byte) (s : State) (a : Word) : (loadA v s).memRead a = s.memRead a := rfl
@[simp] theorem memRead_report (op : Byte) (s : State) (a : Word) : (report op s).memRead a = s.memRead a := rfl

/-! ### flags -/

@[simp] theorem setZN_c (f : Flags) (w : Byte) : (f.setZN w).c = f.c := rfl
@[simp] theorem setZN_z (f : Flags) (w : Byte) : (f.setZN w).z = (w == 0) := rfl
@[simp] theorem setZN_i (f : Flags) (w : Byte) : (f.setZN w).i = f.i := rfl
@[simp] theorem setZN_d (f : Flags) (w : Byte) : (f.setZN w).d = f.d := rfl
@[simp] theorem setZN_b (f : Flags) (w : Byte) : (f.setZN w).b = f.b := rfl
@[simp] theorem setZN_v (f : Flags) (w : Byte) : (f.setZN w).v = f.v := rfl
@[simp] theorem setZN_n (f : Flags) (w : Byte) : (f.setZN w).n = bit7 w := rfl

@[simp] theorem cmp_c (f : Flags) (a imm : Byte) : (f.cmp a imm).c = decide (imm.toNat ≤ a.toNat) := rfl
@[simp] theorem cmp_z (f : Flags) (a imm : Byte) : (f.cmp a imm).z = (a == imm) := rfl
@[simp] theorem cmp_i (f : Flags) (a imm : Byte) : (f.cmp a imm).i = f.i := rfl
@[simp] theorem cmp_d (f : Flags) (a imm : Byte) : (f.cmp a imm).d = f.d := rfl
@[simp] theorem cmp_b (f : Flags) (a imm : Byte) : (f.cmp a imm).b = f.b := rfl
@[simp] theorem cmp_v (f : Flags) (a imm : Byte) : (f.cmp a imm).v = f.v := rfl
@[simp] theorem cmp_n (f : Flags) (a imm : Byte) : (f.cmp a imm).n = bit7 (a - imm) := rfl

@[simp] theorem adc_c (f : Flags) (a imm : Byte) : (f.adc a imm).c = decide (adcSum a imm f.c > 255) := rfl
@[simp] theorem adc_z (f : Flags) (a imm : Byte) : (f.adc a imm).z = (adcResult a imm f.c == 0) := rfl
@[simp] theorem adc_i (f : Flags) (a imm : Byte) : (f.adc a imm).i = f.i := rfl
@[simp] theorem adc_d (f : Flags) (a imm : Byte) : (f.adc a imm).d = f.d := rfl
@[simp] theorem adc_b (f : Flags) (a imm : Byte) : (f.adc a imm).b = f.b := rfl
@[simp] theorem adc_v (f : Flags) (a imm : Byte) : (f.adc a imm).v = ((~~~(a ^^^ imm) &&& (a ^^^ adcResult a imm f.c) &&& 0x80) != 0) := rfl
@[simp] theorem adc_n (f : Flags) (a imm : Byte) : (f.adc a imm).n = bit7 (adcResult a imm f.c) := rfl

@[simp] theorem clearC_c (f : Flags) : f.clearC.c = false := rfl
@[simp] theorem clearC_z (f : Flags) : f.clearC.z = f.z := rfl
@[simp] theorem clearC_i (f : Flags) : f.clearC.i = f.i := rfl
@[simp] theorem clearC_d (f : Flags) : f.clearC.d = f.d := rfl
@[simp] theorem clearC_b (f : Flags) : f.clearC.b = f.b := rfl
@[simp] theorem clearC_v (f : Flags) : f.clearC.v = f.v := rfl
@[simp] theorem clearC_n (f : Flags) : f.clearC.n = f.n := rfl

@[simp] theorem clearD_c (f : Flags) : f.clearD.c = f.c := rfl
@[simp] theorem clearD_z (f : Flags) : f.clearD.z = f.z := rfl
@[simp] theorem clearD_i (f : Flags) : f.clearD.i = f.i := rfl
@[simp] theorem clearD_d (f : Flags) : f.clearD.d = false := rfl
@[simp] theorem clearD_b (f : Flags) : f.clearD.b = f.b := rfl
@[simp] theorem clearD_v (f : Flags) : f.clearD.v = f.v := rfl
@[simp] theorem clearD_n (f : Flags) : f.clearD.n = f.n := rfl

@[simp] theorem clearI_c (f : Flags) : f.clearI.c = f.c := rfl
@[simp] theorem clearI_z (f : Flags) : f.clearI.z = f.z := rfl
@[simp] theorem clearI_i (f : Flags) : f.clearI.i = false := rfl
@[simp] theorem clearI_d (f : Flags) : f.clearI.d = f.d := rfl
@[simp] theorem clearI_b (f : Flags) : f.clearI.b = f.b := rfl
@[simp] theorem clearI_v (f : Flags) : f.clearI.v = f.v := rfl
@[simp] theorem clearI_n (f : Flags) : f.clearI.n = f.n := rfl

@[simp] theorem clearV_c (f : Flags) : f.clearV.c = f.c := rfl
@[simp] theorem clearV_z (f : Flags) : f.clearV.z = f.z := rfl
@[simp] theorem clearV_i (f : Flags) : f.clearV.i = f.i := rfl
@[simp] theorem clearV_d (f : Flags) : f.clearV.d = f.d := rfl
@[simp] theorem clearV_b (f : Flags) : f.clearV.b = f.b := rfl
@[simp] theorem clearV_v (f : Flags) : f.clearV.v = false := rfl
@[simp] theorem clearV_n (f : Flags) : f.clearV.n = f.n := rfl

end Sys2Proof.Machine
end

