-- ==== Sys2Proof/Laws/Memory.lean ====
section
/-! SUPPORT. The laws of memory: a read after a write, for every list of cells, and the canonical form, which every
memory operation keeps (20_memory.md R33, R34). -/

namespace Sys2Proof.Machine

@[simp] theorem Memory.read_nil (a : Nat) : Memory.read [] a = Memory.blank := rfl

theorem Memory.read_cons (k a : Nat) (v : Byte) (m : Memory) :
    Memory.read ((k, v) :: m) a = if k = a then v else Memory.read m a := rfl

theorem Memory.read_erase (m : Memory) (a b : Nat) :
    (Memory.erase m a).read b = if b = a then Memory.blank else m.read b := by
  unfold Memory.erase
  induction m with
  | nil => simp
  | cons cell rest ih =>
    obtain ⟨k, v⟩ := cell
    by_cases hk : k = a
    · subst hk
      by_cases hb : b = k
      · simpa [hb] using ih
      · simp [ih, hb, Memory.read_cons, Ne.symm hb]
    · by_cases hb : k = b
      · subst hb
        simp [hk, Memory.read_cons]
      · simp [hk, hb, Memory.read_cons, ih]

theorem Memory.read_insert (m : Memory) (a b : Nat) (v : Byte) (h : m.read a = Memory.blank)
    (hno : ∀ cell ∈ m, cell.1 ≠ a) :
    (Memory.insert m a v).read b = if b = a then v else m.read b := by
  induction m with
  | nil =>
    by_cases hb : b = a
    · simp [Memory.insert, Memory.read_cons, hb]
    · simp [Memory.insert, Memory.read_cons, hb, Ne.symm hb]
  | cons cell rest ih =>
    obtain ⟨k, w⟩ := cell
    have hk : k ≠ a := hno (k, w) (by simp)
    have hrest : Memory.read rest a = Memory.blank := by simpa [Memory.read_cons, hk] using h
    have ih' := ih hrest (fun c hc => hno c (by simp [hc]))
    unfold Memory.insert
    split
    · by_cases hb : b = a
      · simp [Memory.read_cons, hb]
      · simp [Memory.read_cons, hb, Ne.symm hb]
    · by_cases hb : b = a
      · subst hb; simp [Memory.read_cons, hk, ih']
      · by_cases hkb : k = b <;> simp [Memory.read_cons, hkb, hb, ih']

/-- Reading after a write: the byte written at its own address, and the old byte everywhere else. -/
theorem Memory.read_write (m : Memory) (a b : Nat) (v : Byte) :
    (m.write a v).read b = if b = a then v else m.read b := by
  unfold Memory.write
  split
  · rename_i hv
    rw [Memory.read_erase]
    split <;> simp [hv]
  · rw [Memory.read_insert]
    · by_cases hb : b = a <;> simp [hb, Memory.read_erase]
    · simp [Memory.read_erase]
    · intro cell hc
      simpa using (List.mem_filter.mp hc).2

theorem memRead_memWrite (s : State) (a b : Word) (v : Byte) :
    (s.memWrite a v).memRead b = if b = a then v else s.memRead b := by
  simp [State.memRead, State.memWrite, Memory.read_write, BitVec.toNat_inj]

/-- The canonical form in words of its cells. -/
theorem Memory.wf_iff (m : Memory) :
    Memory.wf m = true ↔
      m.Pairwise (fun l r => l.1 < r.1) ∧ ∀ cell ∈ m, cell.1 < 65536 ∧ cell.2 ≠ Memory.blank := by
  simp [Memory.wf]

@[simp] theorem Memory.wf_nil : Memory.wf [] = true := by decide

theorem Memory.wf_erase (m : Memory) (a : Nat) (h : Memory.wf m = true) : Memory.wf (Memory.erase m a) = true := by
  rw [Memory.wf_iff] at *
  exact ⟨h.1.filter _, fun c hc => h.2 c (List.mem_filter.mp hc).1⟩

theorem Memory.mem_insert (m : Memory) (a : Nat) (v : Byte) (cell : Host.Cell) :
    cell ∈ Memory.insert m a v ↔ cell = (a, v) ∨ cell ∈ m := by
  induction m with
  | nil => simp [Memory.insert]
  | cons head rest ih =>
    obtain ⟨k, w⟩ := head
    unfold Memory.insert
    split
    · simp
    · simp only [List.mem_cons, ih]; tauto

theorem Memory.wf_insert (m : Memory) (a : Nat) (v : Byte) (h : Memory.wf m = true) (ha : a < 65536)
    (hv : v ≠ Memory.blank) (hno : ∀ cell ∈ m, cell.1 ≠ a) : Memory.wf (Memory.insert m a v) = true := by
  rw [Memory.wf_iff] at *
  refine ⟨?_, fun c hc => ?_⟩
  · have hsorted := h.1
    clear h
    induction m with
    | nil => simp [Memory.insert]
    | cons head rest ih =>
      obtain ⟨k, w⟩ := head
      have hk : k ≠ a := hno (k, w) (by simp)
      rw [List.pairwise_cons] at hsorted
      unfold Memory.insert
      split
      · rename_i hlt
        refine List.pairwise_cons.mpr ⟨fun c hc => ?_, List.pairwise_cons.mpr hsorted⟩
        rcases List.mem_cons.mp hc with rfl | hc
        · exact hlt
        · exact lt_trans hlt (hsorted.1 c hc)
      · rename_i hnlt
        refine List.pairwise_cons.mpr ⟨fun c hc => ?_, ih (fun c hc => hno c (by simp [hc])) hsorted.2⟩
        rcases (Memory.mem_insert rest a v c).mp hc with rfl | hc
        · simp only; omega
        · exact hsorted.1 c hc
  · rcases (Memory.mem_insert m a v c).mp hc with rfl | hc
    · exact ⟨ha, hv⟩
    · exact h.2 c hc

/-- A write below 65536 keeps the canonical form. -/
theorem Memory.wf_write (m : Memory) (a : Nat) (v : Byte) (h : Memory.wf m = true) (ha : a < 65536) :
    Memory.wf (m.write a v) = true := by
  unfold Memory.write
  split
  · exact Memory.wf_erase m a h
  · rename_i hv
    exact Memory.wf_insert _ a v (Memory.wf_erase m a h) ha hv
      (fun cell hc => by simpa using (List.mem_filter.mp hc).2)

theorem wf_memWrite (s : State) (a : Word) (v : Byte) (h : Memory.wf s.mem = true) :
    Memory.wf (s.memWrite a v).mem = true := Memory.wf_write _ _ _ h a.isLt

theorem reset_mem_wf : Memory.wf State.reset.mem = true := by decide

end Sys2Proof.Machine
end

