-- ==== Sys2Proof/Laws/Ops.lean ====
section
/-! SUPPORT. For each shared operation, what it can do, said once. -/

namespace Sys2Proof.Machine

/-! ### the stack pointer -/

/-- ModifySP always answers an address of the stack page (40_fetch_decode_execute.md R64). -/
theorem modifySp_inPage (w : Word) : 0x0100 ≤ (modifySp w).toNat ∧ (modifySp w).toNat ≤ 0x01FF := by
  unfold modifySp
  split
  · decide
  · split
    · decide
    · omega

theorem pushAddress_inPage (w : Word) : 0x0100 ≤ (pushAddress w).toNat ∧ (pushAddress w).toNat ≤ 0x01FF :=
  modifySp_inPage _

theorem pulledSp_inPage (w : Word) : 0x0100 ≤ (pulledSp w).toNat ∧ (pulledSp w).toNat ≤ 0x01FF :=
  modifySp_inPage _

/-- In the stack page, Push's address is one below, or the top of the page from its bottom. -/
theorem pushAddress_toNat (w : Word) (h : 0x0100 ≤ w.toNat ∧ w.toNat ≤ 0x01FF) :
    (pushAddress w).toNat = if w.toNat = 0x0100 then 0x01FF else w.toNat - 1 := by
  have hw : (w - 1).toNat = w.toNat - 1 := by bv_omega
  unfold pushAddress modifySp
  rw [hw]
  by_cases h1 : w.toNat = 0x0100
  · simp [h1]
  · rw [if_neg (by omega), if_neg (by omega), if_neg h1, hw]

/-- In the stack page, Pull leaves the pointer one above, or at the bottom of the page from its top. -/
theorem pulledSp_toNat (w : Word) (h : 0x0100 ≤ w.toNat ∧ w.toNat ≤ 0x01FF) :
    (pulledSp w).toNat = if w.toNat = 0x01FF then 0x0100 else w.toNat + 1 := by
  have hw : (w + 1).toNat = w.toNat + 1 := by bv_omega
  unfold pulledSp modifySp
  rw [hw]
  by_cases h1 : w.toNat = 0x01FF
  · simp [h1]
  · rw [if_neg (by omega), if_neg (by omega), if_neg h1, hw]

/-- In the stack page, JSR's two-byte step (47_jump_subroutine.md R119). -/
theorem modifySp_sub_two (w : Word) (h : 0x0100 ≤ w.toNat ∧ w.toNat ≤ 0x01FF) :
    (modifySp (w - 2)).toNat = if w.toNat ≤ 0x0101 then 0x01FF else w.toNat - 2 := by
  have hw : (w - 2).toNat = w.toNat - 2 := by bv_omega
  unfold modifySp
  rw [hw]
  by_cases h1 : w.toNat ≤ 0x0101
  · rw [if_pos (by omega), if_pos h1]; rfl
  · rw [if_neg (by omega), if_neg (by omega), if_neg h1, hw]

/-- A Push followed by a Pull gives the pointer back (R66). -/
theorem pulledSp_pushAddress (w : Word) (h : 0x0100 ≤ w.toNat ∧ w.toNat ≤ 0x01FF) :
    pulledSp (pushAddress w) = w := by
  apply BitVec.eq_of_toNat_eq
  rw [pulledSp_toNat _ (pushAddress_inPage w), pushAddress_toNat w h]
  split_ifs <;> omega

/-- JSR never writes at 0xFFFF from a state of the invariant (R37). -/
theorem jsrAddress_toNat (w : Word) (h : 0x0100 ≤ w.toNat ∧ w.toNat ≤ 0x01FF) :
    (jsrAddress w).toNat = w.toNat - 2 := by unfold jsrAddress; bv_omega

theorem jsrAddress_ne_top (w : Word) (h : 0x0100 ≤ w.toNat ∧ w.toNat ≤ 0x01FF) : jsrAddress w ≠ 0xFFFF := by
  intro he
  have h1 := jsrAddress_toNat w h
  have h2 : (0xFFFF : Word).toNat = 65535 := rfl
  rw [he, h2] at h1
  omega

/-! ### results -/

theorem onStack_inPage (s : State) (r : Result) (h : s.SpInPage) : onStack s r = r := if_pos h

theorem onStack_outside (s : State) (r : Result) (h : ¬ s.SpInPage) :
    onStack s r = .refused .stackPointerOutsidePage := if_neg h

/-- A stack instruction that goes on started in the stack page. -/
theorem onStack_next (s t : State) (r : Result) (h : onStack s r = .next t) : s.SpInPage ∧ r = .next t := by
  unfold onStack at h
  split at h
  · exact ⟨‹_›, h⟩
  · cases h

theorem andThen_next (r : Result) (k : State → Result) (t : State) (h : andThen r k = .next t) :
    ∃ s, r = .next s ∧ k s = .next t := by
  cases r with
  | next s => exact ⟨s, rfl, h⟩
  | fault f => cases f
  | refused why => cases h

/-- WriteWord below the top of memory (R63). -/
theorem writeWord_below_top (a w : Word) (s : State) (h : a ≠ 0xFFFF) :
    writeWord a w s =
      .next (((s.memWrite a (lowByte w)).memWrite (a + 1) (highByte w)).charge 2) := if_neg h

theorem writeWord_top (w : Word) (s : State) : writeWord 0xFFFF w s = .refused .wordWriteOutOfRange := rfl

theorem readByte_fst (a : Word) (s : State) : (readByte a s).1 = s.memRead a := rfl

theorem readByte_snd (a : Word) (s : State) : (readByte a s).2 = s.charge 1 := rfl

theorem pull_fst (s : State) : (pull s).1 = s.memRead s.sp := rfl

theorem pull_snd (s : State) : (pull s).2 = { s with sp := pulledSp s.sp } := rfl

theorem pullWordWith_fst (p : Params) (s : State) :
    (pullWordWith p s).1 = wordOf (s.memRead (pulledSp s.sp)) (s.memRead s.sp) := rfl

theorem pullWordWith_snd (p : Params) (s : State) :
    (pullWordWith p s).2 = State.charge p.costPullWord { s with sp := pulledSp (pulledSp s.sp) } := rfl

/-! ### bytes and words -/

@[simp] theorem wordOf_toNat (hi lo : Byte) : (wordOf hi lo).toNat = hi.toNat * 256 + lo.toNat := by
  have := lo.isLt
  simp only [wordOf, BitVec.toNat_append]
  rw [← Nat.shiftLeft_add_eq_or_of_lt this, Nat.shiftLeft_eq]

@[simp] theorem lowByte_toNat (w : Word) : (lowByte w).toNat = w.toNat % 256 := by
  simp [lowByte, BitVec.extractLsb'_toNat]

@[simp] theorem highByte_toNat (w : Word) : (highByte w).toNat = w.toNat / 256 := by
  have := w.isLt
  simp only [highByte, BitVec.extractLsb'_toNat, Nat.shiftRight_eq_div_pow]
  omega

@[simp] theorem wordOf_high_low (w : Word) : wordOf (highByte w) (lowByte w) = w := by
  apply BitVec.eq_of_toNat_eq
  simp only [wordOf_toNat, highByte_toNat, lowByte_toNat]
  omega

@[simp] theorem lowByte_wordOf (hi lo : Byte) : lowByte (wordOf hi lo) = lo := by
  apply BitVec.eq_of_toNat_eq
  have := lo.isLt
  simp only [wordOf_toNat, lowByte_toNat]
  omega

@[simp] theorem highByte_wordOf (hi lo : Byte) : highByte (wordOf hi lo) = hi := by
  apply BitVec.eq_of_toNat_eq
  have := lo.isLt
  simp only [wordOf_toNat, highByte_toNat]
  omega

/-- Two words are in one page when their high bytes are equal (00_scope.md R9). -/
theorem highByte_eq_iff (a b : Word) : highByte a = highByte b ↔ a.toNat / 256 = b.toNat / 256 := by
  rw [← highByte_toNat, ← highByte_toNat, BitVec.toNat_inj]

theorem bit7_eq (v : Byte) : bit7 v = decide (128 ≤ v.toNat) := by
  revert v; decide

/-- SetZN in terms of the value of its byte (42_alu.md R91). -/
theorem setZN_eq (f : Flags) (v : Byte) :
    f.setZN v = { f with z := decide (v = 0), n := decide (128 ≤ v.toNat) } := by
  simp only [Flags.setZN, bit7_eq]
  rfl

theorem adcResult_toNat (a imm : Byte) (carry : Bool) :
    (adcResult a imm carry).toNat = (a.toNat + imm.toNat + carry.toNat) % 256 := by
  simp [adcResult, adcSum]

/-! ### addresses -/

theorem zpAddress_eq (zp : Byte) : zpAddress zp = BitVec.ofNat 16 zp.toNat := by
  apply BitVec.eq_of_toNat_eq
  have := zp.isLt
  simp [zpAddress, zext16]

theorem zpxAddressWith_wrapped (p : Params) (h : p.zpxWrap = true) (zp x : Byte) :
    zpxAddressWith p zp x = BitVec.ofNat 16 ((zp.toNat + x.toNat) % 256) := by
  apply BitVec.eq_of_toNat_eq
  simp [zpxAddressWith, h, zext16]

theorem zpxAddressWith_unwrapped (p : Params) (h : p.zpxWrap = false) (zp x : Byte) :
    zpxAddressWith p zp x = BitVec.ofNat 16 (zp.toNat + x.toNat) := by
  apply BitVec.eq_of_toNat_eq
  have := zp.isLt
  have := x.isLt
  simp [zpxAddressWith, h, zext16]

/-- INC's address, from the address of its opcode (45_memory_rmw.md R112). -/
theorem incAddress_next (pc : Word) : incAddress (pc + 2) = pc + 1 := by unfold incAddress; bv_omega

/-! ### a byte changed in place -/

theorem memRead_modifyByte (f : Byte → Byte) (ea a : Word) (s : State) :
    (modifyByte f ea s).memRead a = if a = ea then f (s.memRead ea) else s.memRead a := by
  show (s.memWrite ea (f (s.memRead ea))).memRead a = _
  exact memRead_memWrite s ea a _

end Sys2Proof.Machine
end

