-- ==== Sys2Proof/Laws/Decode.lean ====
section
/-! SUPPORT. The decoder on three bytes, and the step as the dispatch of what it reads. -/

namespace Sys2Proof

/-- The operand bytes of the instruction an opcode byte stands for are those the decoder takes. -/
theorem assembleWith_operandBytes (p : Params) (op b1 b2 : Byte) :
    (assembleWith p op b1 b2).format.operandBytes = operandBytesWith p op := by
  unfold assembleWith operandBytesWith
  cases p.opc.lookup op with
  | none => rfl
  | some h => cases h <;> rfl

/-- No opcode fetches more than two operand bytes (30_encoding.md R50). -/
theorem operandBytesWith_le_two (p : Params) (op : Byte) : operandBytesWith p op ≤ 2 := by
  unfold operandBytesWith
  cases p.opc.lookup op with
  | none => decide
  | some h => cases h <;> decide

end Sys2Proof

namespace Sys2Proof.Machine

theorem step_eq (s : State) : step s = exec (instrAt s) s := rfl

end Sys2Proof.Machine
end

