-- ==== Sys2Proof/Laws/Meanings.lean ====
section
/-! SUPPORT. The stack and call meanings from a stack pointer in its page, as one next state, and what stops them. -/

namespace Sys2Proof.Machine

theorem execPhaWith_inPage (p : Params) (s : State) (h : s.SpInPage) :
    execPhaWith p s = .next (((push s.a (s.fetched 1)).advance 1).charge p.costPushPull) := if_pos h

theorem execPlaWith_inPage (p : Params) (s : State) (h : s.SpInPage) :
    execPlaWith p s =
      .next (((if p.plaSetsNZ then loadA (s.memRead s.sp) { s.fetched 1 with sp := pulledSp s.sp }
        else { s.fetched 1 with a := s.memRead s.sp, sp := pulledSp s.sp }).advance 1).charge p.costPushPull) := if_pos h

theorem execJsrWith_inPage (p : Params) (target : Word) (s : State) (h : s.SpInPage) :
    execJsrWith p target s =
      .next (State.charge p.costJsrExtra
        { ((((s.fetched 3).memWrite (jsrAddress s.sp) (lowByte (jsrReturnWord (s.fetched 3).pc))).memWrite
            (jsrAddress s.sp + 1) (highByte (jsrReturnWord (s.fetched 3).pc))).charge 2) with
          sp := modifySp (s.sp - 2), pc := target }) := by
  have hw := writeWord_below_top (jsrAddress s.sp) (jsrReturnWord (s.fetched 3).pc) (s.fetched 3)
    (jsrAddress_ne_top s.sp h)
  unfold execJsrWith
  rw [onStack_inPage s _ h, fetched_sp, hw]
  rfl

theorem execRtsWith_inPage (p : Params) (s : State) (h : s.SpInPage) :
    execRtsWith p s =
      .next (State.charge 1
        { (State.charge p.costPullWord { s.fetched 1 with sp := pulledSp (pulledSp s.sp) }) with
          pc := wordOf (s.memRead (pulledSp s.sp)) (s.memRead s.sp) + 1 }) := if_pos h

theorem execPhaWith_outside (p : Params) (s : State) (h : ¬ s.SpInPage) :
    execPhaWith p s = .refused .stackPointerOutsidePage := if_neg h

theorem execPlaWith_outside (p : Params) (s : State) (h : ¬ s.SpInPage) :
    execPlaWith p s = .refused .stackPointerOutsidePage := if_neg h

theorem execJsrWith_outside (p : Params) (target : Word) (s : State) (h : ¬ s.SpInPage) :
    execJsrWith p target s = .refused .stackPointerOutsidePage := if_neg h

theorem execRtsWith_outside (p : Params) (s : State) (h : ¬ s.SpInPage) :
    execRtsWith p s = .refused .stackPointerOutsidePage := if_neg h

/-- What the two halves of a branch leave (43_branch.md R94). -/
theorem branchIf_true (off : Byte) (s : State) : branchIf true off s = takeBranch off (s.fetched 2) := rfl

theorem branchIf_false (off : Byte) (s : State) : branchIf false off s = s.fetched 2 := rfl

/-- A branch changes the program counter and the cycle counter only. -/
theorem branchIf_frame (cond : Bool) (off : Byte) (s : State) :
    branchIf cond off s = { s with pc := (branchIf cond off s).pc, cyc := (branchIf cond off s).cyc } := by
  cases cond <;> rfl

theorem branchIf_a (cond : Bool) (off : Byte) (s : State) : (branchIf cond off s).a = s.a := by rw [branchIf_frame]
theorem branchIf_x (cond : Bool) (off : Byte) (s : State) : (branchIf cond off s).x = s.x := by rw [branchIf_frame]
theorem branchIf_y (cond : Bool) (off : Byte) (s : State) : (branchIf cond off s).y = s.y := by rw [branchIf_frame]
theorem branchIf_sp (cond : Bool) (off : Byte) (s : State) : (branchIf cond off s).sp = s.sp := by rw [branchIf_frame]
theorem branchIf_flags (cond : Bool) (off : Byte) (s : State) : (branchIf cond off s).flags = s.flags := by
  rw [branchIf_frame]
theorem branchIf_mem (cond : Bool) (off : Byte) (s : State) : (branchIf cond off s).mem = s.mem := by
  rw [branchIf_frame]
theorem branchIf_diag (cond : Bool) (off : Byte) (s : State) : (branchIf cond off s).diag = s.diag := by
  rw [branchIf_frame]

/-- The counters of a taken branch, from the branch's own opcode. -/
theorem branchIf_true_pc (off : Byte) (s : State) : (branchIf true off s).pc = branchTarget (s.pc + 2) off := rfl

theorem branchIf_true_cyc (off : Byte) (s : State) :
    (branchIf true off s).cyc =
      s.cyc - 2 - (if pageCrossed (s.pc + 2) (branchTarget (s.pc + 2) off) then 2 else 1 : Nat) := rfl

/-! ### what a stack instruction that goes on has done -/

theorem execPha_next (s t : State) (h : exec .pha s = .next t) :
    s.SpInPage ∧ t = ((push s.a (s.fetched 1)).advance 1).charge params.costPushPull := by
  obtain ⟨hp, hr⟩ := onStack_next _ _ _ h
  cases hr
  exact ⟨hp, rfl⟩

theorem execPla_next (s t : State) (h : exec .pla s = .next t) :
    s.SpInPage ∧
      t = { s with a := s.memRead s.sp, sp := pulledSp s.sp, pc := s.pc + 1 + 1, cyc := s.cyc - 1 - 3 } := by
  obtain ⟨hp, hr⟩ := onStack_next _ _ _ h
  cases hr
  exact ⟨hp, rfl⟩

theorem execRts_next (s t : State) (h : exec .rts s = .next t) :
    s.SpInPage ∧
      t = { s with
        sp := pulledSp (pulledSp s.sp)
        pc := wordOf (s.memRead (pulledSp s.sp)) (s.memRead s.sp) + 1
        cyc := s.cyc - 1 - 2 - 1 } := by
  obtain ⟨hp, hr⟩ := onStack_next _ _ _ h
  cases hr
  exact ⟨hp, rfl⟩

theorem execJsr_next (target : Word) (s t : State) (h : exec (.jsr target) s = .next t) :
    s.SpInPage ∧
      t = { s with
        mem := (((s.fetched 3).memWrite (jsrAddress s.sp) (lowByte (jsrReturnWord (s.fetched 3).pc))).memWrite
          (jsrAddress s.sp + 1) (highByte (jsrReturnWord (s.fetched 3).pc))).mem
        sp := modifySp (s.sp - 2)
        pc := target
        cyc := s.cyc - 3 - 2 - 0 } := by
  have hp := (onStack_next _ _ _ h).1
  have he : exec (.jsr target) s = _ := execJsrWith_inPage params target s hp
  rw [he] at h
  cases h
  exact ⟨hp, rfl⟩

end Sys2Proof.Machine
end

