-- ==== Sys2Proof/Laws/PerInstr.lean ====
section
/-! SUPPORT. Statements made per instruction. `EncodedLength`: the encoding of an instruction has the length its format
gives it (30_encoding.md R50, R53). -/

namespace Sys2Proof.Laws.EncodedLength

def Statement (i : Instr) : Prop := (encode i).length = i.length

theorem ldaImm (imm : Byte) : Statement (.ldaImm imm) := rfl
theorem ldaZp (zp : Byte) : Statement (.ldaZp zp) := rfl
theorem ldaZpX (zp : Byte) : Statement (.ldaZpX zp) := rfl
theorem adc (imm : Byte) : Statement (.adc imm) := rfl
theorem and (imm : Byte) : Statement (.and imm) := rfl
theorem cmp (imm : Byte) : Statement (.cmp imm) := rfl
theorem bcc (off : Byte) : Statement (.bcc off) := rfl
theorem bcs (off : Byte) : Statement (.bcs off) := rfl
theorem beq (off : Byte) : Statement (.beq off) := rfl
theorem bne (off : Byte) : Statement (.bne off) := rfl
theorem bmi (off : Byte) : Statement (.bmi off) := rfl
theorem bpl (off : Byte) : Statement (.bpl off) := rfl
theorem bvc (off : Byte) : Statement (.bvc off) := rfl
theorem bvs (off : Byte) : Statement (.bvs off) := rfl
theorem clc : Statement .clc := rfl
theorem cld : Statement .cld := rfl
theorem cli : Statement .cli := rfl
theorem clv : Statement .clv := rfl
theorem nop : Statement .nop := rfl
theorem decZp (zp : Byte) : Statement (.decZp zp) := rfl
theorem inc (operand : Byte) : Statement (.inc operand) := rfl
theorem pha : Statement .pha := rfl
theorem pla : Statement .pla := rfl
theorem jsr (target : Word) : Statement (.jsr target) := rfl
theorem jmp (target : Word) : Statement (.jmp target) := rfl
theorem rts : Statement .rts := rfl
theorem unimpl (op : Byte) : Statement (.unimpl op) := rfl

end Sys2Proof.Laws.EncodedLength
end

