-- ==== Sys2Proof/Tests/Slice0.lean ====
section
/-! SUPPORT. The model's own tests. Expected results are the spec's: the words of 30_encoding.md R50 and R54, the source's
examples S1 to S8 and the vectors V-* of 95_test_vectors.md. The last part shows, for every statement with hypotheses, a
concrete state and operands that meet them. -/

namespace Sys2Proof.Tests

open Sys2Proof.Machine

/-- The convention of 95_test_vectors.md: the state after Reset with `pc` at an address and the bytes placed there. -/
def program (pc : Word) (bytes : List Byte) : State := placeBytes bytes pc { State.reset with pc := pc }

/-- The next state, if there is one. -/
def nextOf (r : Result) : Option State :=
  match r with
  | .next s => some s
  | .fault _ => none
  | .refused _ => none

/-- One field of the state after one step. -/
def after (s : State) {α : Type} (f : State → α) : Option α := (nextOf (step s)).map f

/-- The program counter and the cycles taken. -/
def pcCost (s t : State) : Nat × Int := (t.pc.toNat, s.cyc - t.cyc)

/-! ## Well-formedness -/

theorem test_wf_unimplemented : (Instr.unimpl 0x00).wf = true := by decide
theorem test_wf_refuses_implemented_byte : (Instr.unimpl 0xA9).wf = false := by decide

/-! ## Decoding, a word for every constructor -/

theorem test_decode_ldaImm : decode [0xA9, 0x42] = .ok (.ldaImm 0x42, []) := rfl
theorem test_decode_ldaZp : decode [0xA5, 0x10] = .ok (.ldaZp 0x10, []) := rfl
theorem test_decode_ldaZpX : decode [0xB5, 0xF0] = .ok (.ldaZpX 0xF0, []) := rfl
theorem test_decode_adc : decode [0x69, 0x01] = .ok (.adc 0x01, []) := rfl
theorem test_decode_and : decode [0x29, 0x0F] = .ok (.and 0x0F, []) := rfl
theorem test_decode_cmp : decode [0xC9, 0x05] = .ok (.cmp 0x05, []) := rfl
theorem test_decode_bcc : decode [0x90, 0x04] = .ok (.bcc 0x04, []) := rfl
theorem test_decode_bcs : decode [0xB0, 0xFE] = .ok (.bcs 0xFE, []) := rfl
theorem test_decode_beq : decode [0xF0, 0x02] = .ok (.beq 0x02, []) := rfl
theorem test_decode_bne : decode [0xD0, 0xFC] = .ok (.bne 0xFC, []) := rfl
theorem test_decode_bmi : decode [0x30, 0x01] = .ok (.bmi 0x01, []) := rfl
theorem test_decode_bpl : decode [0x10, 0xFD] = .ok (.bpl 0xFD, []) := rfl
theorem test_decode_bvc : decode [0x50, 0x7F] = .ok (.bvc 0x7F, []) := rfl
theorem test_decode_bvs : decode [0x70, 0x80] = .ok (.bvs 0x80, []) := rfl
theorem test_decode_clc : decode [0x18, 0x69] = .ok (.clc, [0x69]) := rfl
theorem test_decode_cld : decode [0xD8] = .ok (.cld, []) := rfl
theorem test_decode_cli : decode [0x58] = .ok (.cli, []) := rfl
theorem test_decode_clv : decode [0xB8] = .ok (.clv, []) := rfl
theorem test_decode_nop : decode [0xEA, 0xA9] = .ok (.nop, [0xA9]) := rfl
theorem test_decode_decZp : decode [0xC6, 0x10] = .ok (.decZp 0x10, []) := rfl
theorem test_decode_inc : decode [0xE6, 0x7F] = .ok (.inc 0x7F, []) := rfl
theorem test_decode_pha : decode [0x48, 0xFF] = .ok (.pha, [0xFF]) := rfl
theorem test_decode_pla : decode [0x68, 0xFF] = .ok (.pla, [0xFF]) := rfl
theorem test_decode_jsr : decode [0x20, 0x10, 0x02] = .ok (.jsr 0x0210, []) := rfl
theorem test_decode_jmp : decode [0x4C, 0x00, 0x02] = .ok (.jmp 0x0200, []) := rfl
theorem test_decode_rts : decode [0x60] = .ok (.rts, []) := rfl
theorem test_decode_unimpl : decode [0x8D, 0x00] = .ok (.unimpl 0x8D, [0x00]) := rfl
theorem test_decode_refuses_empty : decode [] = .error .noOpcode := rfl
theorem test_decode_refuses_short_jsr : decode [0x20, 0x10] = .error .operandMissing := rfl
theorem test_decode_table_word : decodeTableWord 24 0x123420 = some (.jsr 0x1234) := rfl
theorem test_decode_table_word_opcode_only : decodeTableWord 8 0x5520 = some (.jsr 0x0000) := rfl
/-- R55's counts per row of the opcode map: 26 implemented byte values. -/
theorem test_opcode_count : opcodeMap.length = 26 := rfl

/-! ## Reset -/

/-- S1 with the defaults. -/
theorem test_reset : State.reset.pc = 0xFFFC ∧ State.reset.sp = 0x0100 ∧ State.reset.memRead 0xFFFF = 0 := by decide
/-- V-RST-1, two of its fields. -/
theorem test_reset_erases :
    (resetCommand { program 0x0200 [0xA9] with a := 0x80, sp := 0x01F0, diag := [0x00] }).memRead 0x0200 = 0 := by decide

/-! ## Loads -/

/-- S2. -/
theorem test_lda_zero : after (program 0x0200 [0xA9, 0x00]) (fun t => (t.a, t.flags.z, t.flags.n)) = some (0x00, true, false) := by decide
/-- S2 and the cost of V-LDA-2. -/
theorem test_lda_negative :
    after (program 0x0200 [0xA9, 0x80]) (fun t => (t.flags.z, t.flags.n, pcCost State.reset t)) = some (false, true, 0x0202, 2) := by decide
/-- V-LDA-6. -/
theorem test_ldaZp_top :
    after (((program 0x0200 [0xA5, 0xFF]).memWrite 0x00FF 0x01).memWrite 0x01FF 0x77)
      (fun t => (t.a, pcCost State.reset t)) = some (0x01, 0x0202, 3) := by decide
/-- V-LDA-8. -/
theorem test_ldaZpX_wraps :
    after { ((program 0x0200 [0xB5, 0xF0]).memWrite 0x0010 0x5A).memWrite 0x0110 0xEE with x := 0x20 }
      (fun t => (t.a, pcCost State.reset t)) = some (0x5A, 0x0202, 4) := by decide

/-! ## Arithmetic -/

/-- A, C, Z, V, N after `69 imm`. -/
def adcCase (a imm : Byte) (carry : Bool) : Option (Byte × Bool × Bool × Bool × Bool) :=
  after { program 0x0200 [0x69, imm] with a := a, flags := { State.reset.flags with c := carry } }
    (fun t => (t.a, t.flags.c, t.flags.z, t.flags.v, t.flags.n))

/-- V-ADC-3. -/
theorem test_adc_largest : adcCase 0xFF 0xFF true = some (0xFF, true, false, false, true) := by decide
/-- V-ADC-4. -/
theorem test_adc_negative_overflow : adcCase 0x80 0x80 false = some (0x00, true, true, true, false) := by decide
/-- V-AND-3. -/
theorem test_and :
    after { program 0x0200 [0x29, 0x8F] with a := 0xF0, flags := { State.reset.flags with c := true, v := true } }
      (fun t => (t.a, t.flags.z, t.flags.n, t.flags.c, t.flags.v)) = some (0x80, false, true, true, true) := by decide
/-- V-CMP-3. -/
theorem test_cmp_not_signed :
    after { program 0x0200 [0xC9, 0x01] with a := 0x80 } (fun t => (t.a, t.flags.c, t.flags.z, t.flags.n))
      = some (0x80, true, false, false) := by decide
/-- V-CMP-5. -/
theorem test_cmp_zero :
    after { program 0x0200 [0xC9, 0x00] with a := 0xFF } (fun t => (t.flags.c, t.flags.z, t.flags.n))
      = some (true, false, true) := by decide

/-! ## Branches -/

/-- `pc` and cost of a branch at 0x0200 with offset 4, every flag 0 and then every flag 1 (V-BR). -/
def branchCase (op : Byte) (set : Bool) : Option (Nat × Int) :=
  after { program 0x0200 [op, 0x04] with
    flags := { State.reset.flags with c := set, z := set, v := set, n := set } } (pcCost State.reset)

theorem test_bcc : (branchCase 0x90 false, branchCase 0x90 true) = (some (0x0206, 3), some (0x0202, 2)) := by decide
theorem test_bcs : (branchCase 0xB0 false, branchCase 0xB0 true) = (some (0x0202, 2), some (0x0206, 3)) := by decide
theorem test_beq : (branchCase 0xF0 false, branchCase 0xF0 true) = (some (0x0202, 2), some (0x0206, 3)) := by decide
theorem test_bne : (branchCase 0xD0 false, branchCase 0xD0 true) = (some (0x0206, 3), some (0x0202, 2)) := by decide
theorem test_bmi : (branchCase 0x30 false, branchCase 0x30 true) = (some (0x0202, 2), some (0x0206, 3)) := by decide
theorem test_bpl : (branchCase 0x10 false, branchCase 0x10 true) = (some (0x0206, 3), some (0x0202, 2)) := by decide
theorem test_bvc : (branchCase 0x50 false, branchCase 0x50 true) = (some (0x0206, 3), some (0x0202, 2)) := by decide
theorem test_bvs : (branchCase 0x70 false, branchCase 0x70 true) = (some (0x0202, 2), some (0x0206, 3)) := by decide
/-- V-BR-5: the page test is against the next instruction. -/
theorem test_branch_page : after (program 0x02FE [0xD0, 0x00]) (pcCost State.reset) = some (0x0300, 3) := by decide
/-- V-BR-8: the target wraps below zero and the page is another. -/
theorem test_branch_wrap : after (program 0xFFFF [0xD0, 0xFD]) (pcCost State.reset) = some (0xFFFE, 4) := by decide

/-! ## Flag clears and no-operation -/

/-- V-FLG-1. -/
theorem test_clc :
    after { program 0x0200 [0x18] with flags := { State.reset.flags with c := true, z := true, v := true, n := true } }
      (fun t => (t.flags.c, t.flags.z, t.flags.v, t.flags.n, pcCost State.reset t))
      = some (false, true, true, true, 0x0201, 1) := by decide
/-- V-FLG-2. -/
theorem test_cld :
    after { program 0x0200 [0xD8] with flags := { State.reset.flags with d := true } }
      (fun t => (t.flags.d, t.pc)) = some (false, 0x0201) := by decide
/-- V-FLG-3. -/
theorem test_cli :
    after { program 0x0200 [0x58] with flags := { State.reset.flags with i := true } }
      (fun t => (t.flags.i, t.pc)) = some (false, 0x0201) := by decide
/-- V-FLG-4. -/
theorem test_clv :
    after { program 0x0200 [0xB8] with flags := { State.reset.flags with v := true, c := true } }
      (fun t => (t.flags.v, t.flags.c)) = some (false, true) := by decide
/-- V-NOP-1. -/
theorem test_nop_skips : after (program 0x0204 [0xEA, 0xA9]) (pcCost State.reset) = some (0x0206, 1) := by decide
/-- V-NOP-3. -/
theorem test_nop_wraps : after (program 0xFFFF [0xEA]) (pcCost State.reset) = some (0x0001, 1) := by decide

/-! ## Read-modify-write -/

/-- V-DEC-3. -/
theorem test_dec_wraps :
    after (program 0x0200 [0xC6, 0x10]) (fun t => (t.memRead 0x0010, t.flags.z, t.flags.n, pcCost State.reset t))
      = some (0xFF, false, true, 0x0202, 5) := by decide
/-- V-INC-1. -/
theorem test_inc_own_operand :
    after ((program 0x0208 [0xE6, 0x7F]).memWrite 0x007F 0x11)
      (fun t => (t.memRead 0x0209, t.memRead 0x007F, t.flags.n, pcCost State.reset t))
      = some (0x80, 0x11, true, 0x020A, 5) := by decide
/-- V-INC-5: at the top of memory the operand is at 0x0000. -/
theorem test_inc_at_top :
    after (program 0xFFFF [0xE6, 0x41]) (fun t => (t.memRead 0x0000, t.pc)) = some (0x42, 0x0001) := by decide

/-! ## Stack -/

/-- V-PHA-2 (S7). -/
theorem test_pha_from_bottom :
    after { program 0x0200 [0x48] with a := 0x42 }
      (fun t => (t.sp, t.memRead 0x01FF, t.memRead 0x00FF, pcCost State.reset t)) = some (0x01FF, 0x42, 0x00, 0x0202, 4) := by decide
/-- V-PLA-2 (S7). -/
theorem test_pla_from_top :
    after { ((program 0x0210 [0x68]).memWrite 0x01FF 0x80).memWrite 0x0200 0x99 with sp := 0x01FF }
      (fun t => (t.a, t.sp, t.flags.n, pcCost State.reset t)) = some (0x80, 0x0100, false, 0x0212, 4) := by decide
/-- U9: a pointer outside the page is refused by name. -/
theorem test_pha_refused : exec .pha { State.reset with sp := 0x0200 } = .refused .stackPointerOutsidePage := by rfl

/-! ## Jumps and calls -/

/-- V-JSR-1. -/
theorem test_jsr :
    after { program 0x0202 [0x20, 0x10, 0x02] with sp := 0x01FF }
      (fun t => (t.memRead 0x01FD, t.memRead 0x01FE, t.sp, pcCost State.reset t)) = some (0x04, 0x02, 0x01FD, 0x0210, 5) := by decide
/-- V-JSR-3. -/
theorem test_jsr_at_0101 :
    after { program 0x0202 [0x20, 0x10, 0x02] with sp := 0x0101 }
      (fun t => (t.memRead 0x00FF, t.memRead 0x0100, t.sp)) = some (0x04, 0x02, 0x01FF) := by decide
/-- V-JMP-3: the operand is fetched across the top of memory. -/
theorem test_jmp_across_top : after (program 0xFFFE [0x4C, 0x34, 0x12]) (pcCost State.reset) = some (0x1234, 4) := by decide
/-- V-RTS-2. -/
theorem test_rts_wraps :
    after { (((program 0x0212 [0x60]).memWrite 0x01FF 0xFF).memWrite 0x0100 0xFF).memWrite 0x0200 0x12 with sp := 0x01FF }
      (fun t => (t.sp, pcCost State.reset t)) = some (0x0101, 0x0000, 4) := by decide
/-- V-RTS-4. -/
theorem test_rts_from_01FE :
    after { ((program 0x0212 [0x60]).memWrite 0x01FE 0x33).memWrite 0x01FF 0x44 with sp := 0x01FE }
      (fun t => (t.pc, t.sp)) = some (0x4434, 0x0100) := by decide

/-! ## Unimplemented opcodes, Execute, the host -/

/-- V-UN-1. -/
theorem test_unimplemented :
    after (program 0x0202 [0x00]) (fun t => (t.diag, pcCost State.reset t)) = some ([0x00], 0x0203, 1) := by decide
/-- S8: Execute(3) of `[0xA9, 0x42]` at the reset program counter. -/
theorem test_execute_source_example :
    (nextOf (execute 3 (program 0xFFFC [0xA9, 0x42]))).map (fun t => (t.a, t.flags.z, t.flags.n, t.diag, t.cyc))
      = some (0x42, false, false, [0x00], 0) := by decide
/-- V-EX-5: the largest overrun. -/
theorem test_execute_overrun :
    (nextOf (execute 3 (program 0x0200 [0xA9, 0x01, 0xC6, 0x10, 0xEA]))).map (fun t => (t.pc, t.memRead 0x0010, t.cyc))
      = some (0x0204, 0xFF, -4) := by decide
/-- A host loads a byte after Reset and reads it back (R152). -/
theorem test_host_commands :
    Block.commands [.reset, .writeByte 0xFFFF 0x42, .readByte 0xFFFF, .readByte 0] .constructed
      = .next (.ready { State.reset with mem := [(0xFFFF, 0x42)] }, [0x42, 0x00]) := by rfl
/-- The opcode table's first row, placed and run as the first instruction after reset. -/
theorem test_withFetchWord : after (State.reset.withFetchWord 16 0x42A9) (fun t => t.a) = some 0x42 := by decide
/-- R35's row for JSR. -/
theorem test_accesses_jsr :
    accesses (.jsr 0x0210) { State.reset with pc := 0x0202, sp := 0x01FF }
      = [readOf 0x0202, readOf 0x0203, readOf 0x0204, writeOf 0x01FD, writeOf 0x01FE] := by decide
/-- A write of the byte an absent cell reads as leaves no cell. -/
theorem test_memory_canonical : Memory.write (Memory.write (Memory.write [] 7 1) 3 2) 7 0 = [(3, 2)] := by decide

/-! ## Witnesses: the hypotheses of the statements can be met -/

theorem witness_DecodeAfterEncodeIsIdentity :
    OpcComplete params.opc ∧ (Instr.unimpl 0x8D).wfWith params = true ∧ (Instr.jsr 0xFFFF).wfWith params = true := by
  refine ⟨⟨by decide, fun h => ?_⟩, by decide, rfl⟩
  cases h <;> decide

theorem witness_DecodedBytesReencode : decode [0x20, 0x10, 0x02, 0xEA] = .ok (.jsr 0x0210, [0xEA]) := rfl

theorem witness_OpcodeByteAloneGivesLength :
    [0x00, 0x02].length + 1 = (Instr.jmp 0x0200).length ∧ decode [0x4C, 0x00, 0x02, 0xFF] = .ok (.jmp 0x0200, [0xFF]) ∧
    [0x00].length + 1 < (Instr.jmp 0x0200).length := ⟨rfl, rfl, by decide⟩

theorem witness_EncodingSpaceIsWhole :
    params.opc.lookup 0x8D = none ∧ decode [0x4C, 0x10, 0x03, 0xFF] = .ok (.jmp 0x0310, [0xFF]) := ⟨rfl, rfl⟩

theorem witness_StepRunsDecodedInstruction :
    decode [(program 0xFFFF [0x20, 0x10, 0x02]).memRead 0xFFFF, (program 0xFFFF [0x20, 0x10, 0x02]).memRead (0xFFFF + 1),
      (program 0xFFFF [0x20, 0x10, 0x02]).memRead (0xFFFF + 2)] = .ok (.jsr 0x0210, []) := rfl

theorem witness_PlacedInstructionRunsNext :
    decodeTableWord 24 0xFFFF4C = some (.jmp 0xFFFF) ∧ decodeTableWord 8 0x00 = some (.unimpl 0x00) := ⟨rfl, rfl⟩

/-- At address 0 too, where the last clause's FetchWord stands at 0xFFFF. -/
theorem witness_MemWriteSetsOneByte :
    (0xFFFF : Word) ≠ 0x0000 ∧
    highByte (fetchWord { State.reset.memWrite 0x0000 0x42 with pc := 0x0000 - 1 }).1 = 0x42 := by decide

/-- The last program counter for which the advance is said. -/
theorem witness_LoadImmediateResult : (0xFFFD : Word).toNat + 2 < 65536 := by decide

theorem witness_DecrementZeroPage : (0x0110 : Word) ≠ zpAddress 0x10 := by decide

theorem witness_IncrementOwnOperandByte : State.reset.pc ≠ incAddress (State.reset.pc + 2) := by decide

theorem witness_WriteWordIsLittleEndian :
    (0xFFFE : Word) ≠ 0xFFFF ∧ (0x00FE : Word) ≠ 0xFFFF ∧ (0xFFFF : Word) = 0xFFFF := by decide

theorem witness_ModifySpResetsToOppositeEnd :
    (0x00FF : Word).toNat < 0x0100 ∧ 0x01FF < (0x0200 : Word).toNat ∧
    (0x0100 ≤ (0x0100 : Word).toNat ∧ (0x0100 : Word).toNat ≤ 0x01FF) ∧
    (0x0100 ≤ (0x01FF : Word).toNat ∧ (0x01FF : Word).toNat ≤ 0x01FF) ∧
    (nextOf (exec .pha State.reset)).isSome ∧ (nextOf (exec .pla State.reset)).isSome ∧
    (nextOf (exec .rts State.reset)).isSome ∧ (nextOf (exec (.jsr 0x0200) State.reset)).isSome := by decide

theorem witness_LoadsWriteOnlyAccumulatorZeroNegative :
    (0xFF : Byte).toNat + State.reset.x.toNat < 256 ∧
    (nextOf (exec (.ldaZpX 0xFF) State.reset)).isSome ∧ (nextOf (exec (.ldaZp 0xFF) State.reset)).isSome := by decide

theorem witness_ZeroPageXAddressBothReadings :
    params.zpxWrap = true ∧ { params with zpxWrap := false }.zpxWrap = false := ⟨rfl, rfl⟩

theorem witness_AdcOverflowMeansSignedOverflow :
    (nextOf (exec (.adc 0x01) { State.reset with a := 0x7F })).map (fun t => t.flags.v) = some true ∧
    (nextOf (exec (.adc 0xFF) { State.reset with a := 0x7F })).map (fun t => t.flags.v) = some false := by decide

theorem witness_ZeroAndNegativeFollowResult :
    (nextOf (exec (.ldaImm 1) State.reset)).isSome ∧ (nextOf (exec (.ldaZp 1) State.reset)).isSome ∧
    (nextOf (exec (.ldaZpX 1) State.reset)).isSome ∧ (nextOf (exec (.adc 1) State.reset)).isSome ∧
    (nextOf (exec (.and 1) State.reset)).isSome ∧ (nextOf (exec (.cmp 1) State.reset)).isSome ∧
    (nextOf (exec (.decZp 1) State.reset)).isSome ∧ (nextOf (exec (.inc 1) State.reset)).isSome := by decide

theorem witness_BranchReadsOneFlagWritesNone :
    (Instr.bcc 4, true) ∈ branchRows 4 State.reset.flags ∧
    (Instr.bcc 4, true) ∈ branchRows 4 { c := false, z := true, i := true, d := true, b := true, v := true, n := true } := by
  decide

theorem witness_BranchTargetAndCost :
    ((Instr.bcs 4, false) ∈ branchRows 4 State.reset.flags) ∧ ((Instr.bvc 0x80, true) ∈ branchRows 0x80 State.reset.flags) := by
  decide

theorem witness_AssembledBranchReachesLabel :
    (-128 ≤ ((0xFF7E : Word).toNat : Int) - (State.reset.pc.toNat + 2) ∧
      ((0xFF7E : Word).toNat : Int) - (State.reset.pc.toNat + 2) ≤ 127) ∧
    (Instr.bne 0x80, true) ∈ branchRows (relOperand State.reset.pc 0xFF7E) State.reset.flags := by decide

theorem witness_IncrementChangesItsOwnCode : instrAt (program 0x0208 [0xE6, 0xFF]) = .inc 0xFF := by decide

theorem witness_PushAccumulatorResult :
    State.reset.SpInPage ∧ State.SpInPage { State.reset with sp := 0x01FF } := by decide

theorem witness_PullAccumulatorResult :
    State.reset.SpInPage ∧ State.SpInPage { State.reset with sp := 0x01FF } ∧ params.plaSetsNZ = false ∧
    { params with plaSetsNZ := true }.plaSetsNZ = true := by decide

/-- The state between the push and the pull may be the one the push left. -/
theorem witness_PushThenPullRestores :
    State.reset.SpInPage ∧
    (nextOf (exec .pha State.reset)).map (fun t => (t.sp, t.memRead t.sp)) = some (0x01FF, 0x00) := by decide

theorem witness_JumpToSubroutineResult :
    State.reset.SpInPage ∧ State.SpInPage { State.reset with sp := 0x0101 } ∧
    State.SpInPage { State.reset with sp := 0x0102 } := by decide

theorem witness_ReturnFromSubroutineResult :
    State.reset.SpInPage ∧ State.SpInPage { State.reset with sp := 0x01FE } ∧
    State.SpInPage { State.reset with sp := 0x01FF } := by decide

/-- At the lowest pointer the statement allows; the state at the return may be the one the call left. -/
theorem witness_CallThenReturnComesBack :
    0x0102 ≤ (0x0102 : Word).toNat ∧ (0x0102 : Word).toNat ≤ 0x01FF ∧
    (nextOf (exec (.jsr 0x0210) { State.reset with sp := 0x0102 })).map
      (fun t => (t.sp, t.memRead t.sp, t.memRead (t.sp + 1))) = some (0x0100, 0xFE, 0xFF) := by decide

/-- Both pointers, and from Reset the return does not come back: it goes to 0x0001 (program P4 of 95_test_vectors.md). -/
theorem witness_CallAtPageBottomLosesReturn :
    State.reset.sp = 0x0100 ∧ { State.reset with sp := 0x0101 }.sp = 0x0101 ∧
    (nextOf (andThen (exec (.jsr 0x0210) State.reset) (exec .rts))).map (fun v => (v.pc, v.sp)) = some (0x0001, 0x0101) := by
  decide

theorem witness_NestedCallsDescendTheStack :
    { State.reset with sp := 0x01FF }.sp = 0x01FF ∧ (List.replicate 127 (0x0200 : Word)).length ≤ 127 :=
  ⟨rfl, by simp⟩

theorem witness_UnimplementedOpcodeReports : params.opc.lookup 0x00 = none ∧ (0xFFFE : Word).toNat + 1 < 65536 :=
  ⟨rfl, by decide⟩

theorem witness_OnlyAStrayStackPointerStops :
    exec .rts { State.reset with sp := 0x00FF } = .refused .stackPointerOutsidePage ∧
    ¬ State.SpInPage { State.reset with sp := 0x00FF } := ⟨rfl, by decide⟩

/-- JMP meets the premises of every clause. -/
theorem witness_RegisterFrame :
    (nextOf (exec (.jmp 0x0200) State.reset)).isSome ∧
    (∀ b : Byte, Instr.jmp 0x0200 ≠ .ldaImm b ∧ Instr.jmp 0x0200 ≠ .ldaZp b ∧ Instr.jmp 0x0200 ≠ .ldaZpX b ∧
      Instr.jmp 0x0200 ≠ .adc b ∧ Instr.jmp 0x0200 ≠ .and b ∧ Instr.jmp 0x0200 ≠ .unimpl b) ∧
    (∀ w : Word, Instr.jmp 0x0200 ≠ .jsr w) := by
  refine ⟨by decide, fun b => ⟨?_, ?_, ?_, ?_, ?_, ?_⟩, fun w => ?_⟩ <;> nofun

/-- JMP meets the premises of every clause. -/
theorem witness_FlagFrame :
    (nextOf (exec (.jmp 0x0200) State.reset)).isSome ∧
    (∀ b : Byte, Instr.jmp 0x0200 ≠ .adc b ∧ Instr.jmp 0x0200 ≠ .cmp b ∧ Instr.jmp 0x0200 ≠ .decZp b ∧
      Instr.jmp 0x0200 ≠ .inc b) := by
  refine ⟨by decide, fun b => ⟨?_, ?_, ?_, ?_⟩⟩ <;> nofun

/-- DEC stores at one address and leaves its neighbour, JMP stores at none. -/
theorem witness_MemoryFrame :
    (nextOf (exec (.decZp 0x10) State.reset)).isSome ∧ (0x0011 : Word) ∉ storeAddresses (.decZp 0x10) State.reset ∧
    (nextOf (exec (.jmp 0x0200) State.reset)).isSome ∧ storeAddresses (.jmp 0x0200) State.reset = [] := by decide

theorem witness_ProgramCounterAdvance :
    Instr.nop.format = .imps ∧ (nextOf (exec .nop State.reset)).isSome ∧ (Instr.adc 1).format = .imm ∧
    (nextOf (exec (.adc 1) State.reset)).isSome := by decide

theorem witness_CycleCostsAreTabled :
    cycleCost (.bne 0x7F) State.reset = 4 ∧
    (nextOf (exec (.bne 0x7F) State.reset)).map (fun t => t.cyc) = some (-4) := by decide

/-- Two memories that differ at the byte NOP steps over. -/
theorem witness_StepReadsOnlyListedBytes :
    readAddresses (instrAt (program 0x0204 [0xEA, 0xA9])) (program 0x0204 [0xEA, 0xA9]) = [0x0204] ∧
    Memory.read [(0x0204, 0xEA)] 0x0204 = (program 0x0204 [0xEA, 0xA9]).memRead 0x0204 ∧
    (nextOf (step (program 0x0204 [0xEA, 0xA9]))).isSome := by decide

theorem witness_CyclesAndTraceInfluenceNothing :
    (nextOf (exec (.unimpl 0x00) State.reset)).map (fun t => t.diag) = some [0x00] := by decide

theorem witness_StepKeepsInvariant :
    (State.reset.SpInPage ∧ Memory.wf State.reset.mem = true) ∧ (nextOf (step State.reset)).isSome := by decide

theorem witness_StepAlwaysGoesOn : State.reset.SpInPage ∧ State.SpInPage { State.reset with sp := 0x01FF } := by decide

/-- The smallest budget that runs anything, and the largest that runs nothing. -/
theorem witness_ExecuteReturnsWithBoundedOverrun :
    State.reset.SpInPage ∧ (1 : Int) ≤ 1 ∧ (0 : Int) ≤ 0 := by decide

theorem witness_ExecuteUnfoldsAsLoop : State.reset.SpInPage ∧ (0 : Int) < 1 := by decide

theorem witness_ExecuteOneIsOneStep : State.reset.SpInPage := by decide

theorem witness_CommandsAfterResetNeverFail :
    ∀ c ∈ [Command.writeByte 65535 0x42, Command.readByte 65535, Command.execute (-1), Command.reset], c.InRange := by
  simp [Command.InRange]

theorem witness_StepKeepsResetFacts :
    (State.reset.SpInPage ∧ Memory.wf State.reset.mem = true) ∧
    (State.reset.x = 0 ∧ State.reset.y = 0 ∧ State.reset.flags.i = false ∧ State.reset.flags.d = false ∧
      State.reset.flags.b = false) ∧ (nextOf (step State.reset)).isSome := by decide

/-- The highest address, a budget that runs nothing, and Reset. -/
theorem witness_CommandIsServedAndKeepsFacts :
    (State.reset.SpInPage ∧ Memory.wf State.reset.mem = true) ∧
    ∀ c ∈ [Command.writeByte 65535 0x42, Command.readByte 65535, Command.execute 0, Command.reset], c.InRange := by
  refine ⟨by decide, by simp [Command.InRange]⟩

theorem witness_ReachableStatesKeepResetFacts : Reachable State.reset := ⟨[.reset], [], rfl⟩

theorem witness_NothingRunsBeforeReset : 65535 < 65536 := by decide

theorem witness_HostMemoryAccess : 65535 < 65536 ∧ (65534 < 65536 ∧ 65534 ≠ 65535) ∧ 65536 ≤ 65536 := by decide

end Sys2Proof.Tests
end

/-! # What an instruction that goes on has done, and what follows for registers, flags and counters

`Effect` is the table of the instructions' results, one row a constructor; `exec_effect` is the inversion lemma that
ties it to `exec`. The frames, the advance of the program counter and the invariant are read off the table. -/

namespace Sys2Proof.Machine

/-- What an instruction that goes on leaves, written out field by field. A branch is one row for all eight; `i` and
`taken` are then a row of the statements' own table `branchRows`. From `cyc` the fetches go first and then each charge in
turn; `page` is the guard of the stack instructions. -/
inductive Effect (s : State) : Instr → State → Prop
  | ldaImm (imm : Byte) :
      Effect s (.ldaImm imm)
        { s with a := imm, flags := s.flags.setZN imm, pc := s.pc + 2, cyc := s.cyc - 2 }
  | ldaZp (zp : Byte) :
      Effect s (.ldaZp zp)
        { s with
          a := s.memRead (zpAddress zp), flags := s.flags.setZN (s.memRead (zpAddress zp))
          pc := s.pc + 2, cyc := s.cyc - 2 - 1 }
  | ldaZpX (zp : Byte) :
      Effect s (.ldaZpX zp)
        { s with
          a := s.memRead (zpxAddressWith params zp s.x)
          flags := s.flags.setZN (s.memRead (zpxAddressWith params zp s.x))
          pc := s.pc + 2, cyc := s.cyc - 2 - 1 - 1 }
  | adc (imm : Byte) :
      Effect s (.adc imm)
        { s with
          a := adcResult s.a imm s.flags.c, flags := s.flags.adc s.a imm, pc := s.pc + 2, cyc := s.cyc - 2 }
  | and (imm : Byte) :
      Effect s (.and imm)
        { s with a := s.a &&& imm, flags := s.flags.setZN (s.a &&& imm), pc := s.pc + 2, cyc := s.cyc - 2 }
  | cmp (imm : Byte) :
      Effect s (.cmp imm) { s with flags := s.flags.cmp s.a imm, pc := s.pc + 2, cyc := s.cyc - 2 }
  | branch {i : Instr} {taken : Bool} (off : Byte) (row : (i, taken) ∈ branchRows off s.flags) :
      Effect s i { s with pc := (branchIf taken off s).pc, cyc := (branchIf taken off s).cyc }
  | clc : Effect s .clc { s with flags := s.flags.clearC, pc := s.pc + 1, cyc := s.cyc - 1 }
  | cld : Effect s .cld { s with flags := s.flags.clearD, pc := s.pc + 1, cyc := s.cyc - 1 }
  | cli : Effect s .cli { s with flags := s.flags.clearI, pc := s.pc + 1, cyc := s.cyc - 1 }
  | clv : Effect s .clv { s with flags := s.flags.clearV, pc := s.pc + 1, cyc := s.cyc - 1 }
  | nop : Effect s .nop { s with pc := s.pc + 1 + 1, cyc := s.cyc - 1 }
  | decZp (zp : Byte) :
      Effect s (.decZp zp)
        { s with
          mem := s.mem.write (zpAddress zp).toNat (s.memRead (zpAddress zp) - 1)
          flags := s.flags.setZN (s.memRead (zpAddress zp) - 1)
          pc := s.pc + 2, cyc := s.cyc - 2 - 3 }
  | inc (operand : Byte) :
      Effect s (.inc operand)
        { s with
          mem := s.mem.write (incAddress (s.pc + 2)).toNat (s.memRead (incAddress (s.pc + 2)) + 1)
          flags := s.flags.setZN (s.memRead (incAddress (s.pc + 2)) + 1)
          pc := s.pc + 2, cyc := s.cyc - 2 - 3 }
  | pha (page : s.SpInPage) :
      Effect s .pha
        { s with
          sp := pushAddress s.sp, mem := s.mem.write (pushAddress s.sp).toNat s.a
          pc := s.pc + 1 + 1, cyc := s.cyc - 1 - 3 }
  | pla (page : s.SpInPage) :
      Effect s .pla
        { s with a := s.memRead s.sp, sp := pulledSp s.sp, pc := s.pc + 1 + 1, cyc := s.cyc - 1 - 3 }
  | jsr (target : Word) (page : s.SpInPage) :
      Effect s (.jsr target)
        { s with
          mem := (s.mem.write (jsrAddress s.sp).toNat (lowByte (jsrReturnWord (s.pc + 3)))).write
            (jsrAddress s.sp + 1).toNat (highByte (jsrReturnWord (s.pc + 3)))
          sp := modifySp (s.sp - 2), pc := target, cyc := s.cyc - 3 - 2 - 0 }
  | jmp (target : Word) : Effect s (.jmp target) { s with pc := target, cyc := s.cyc - 3 - 1 }
  | rts (page : s.SpInPage) :
      Effect s .rts
        { s with
          sp := pulledSp (pulledSp s.sp)
          pc := wordOf (s.memRead (pulledSp s.sp)) (s.memRead s.sp) + 1, cyc := s.cyc - 1 - 2 - 1 }
  | unimpl (op : Byte) :
      Effect s (.unimpl op) { s with diag := s.diag ++ [op], pc := s.pc + 1, cyc := s.cyc - 1 }

/-- A branch leaves its row of the table, whichever way its condition turns out. -/
theorem branchIf_effect {s : State} {i : Instr} {taken : Bool} {off : Byte}
    (row : (i, taken) ∈ branchRows off s.flags) : Effect s i (branchIf taken off s) := by
  rw [branchIf_frame]
  exact .branch off row

/-- The inversion lemma of `exec`: an instruction that goes on has done what its row of the table says. -/
theorem exec_effect {i : Instr} {s t : State} (h : exec i s = .next t) : Effect s i t := by
  cases i with
  | pha => obtain ⟨page, rfl⟩ := execPha_next s t h; exact .pha page
  | pla => obtain ⟨page, rfl⟩ := execPla_next s t h; exact .pla page
  | jsr target => obtain ⟨page, rfl⟩ := execJsr_next target s t h; exact .jsr target page
  | rts => obtain ⟨page, rfl⟩ := execRts_next s t h; exact .rts page
  | bcc off | bcs off | beq off | bne off | bmi off | bpl off | bvc off | bvs off =>
    cases h
    exact branchIf_effect (by
      simp [branchRows, Flags.carryClear, Flags.carrySet, Flags.isZero, Flags.notZero, Flags.minus, Flags.plus,
        Flags.overflowClear, Flags.overflowSet])
  | _ => cases h; constructor

/-- From a stack pointer in its page every instruction goes on. -/
theorem exec_goes_on (i : Instr) (s : State) (page : s.SpInPage) : ∃ t : State, exec i s = .next t := by
  cases i with
  | pha => exact ⟨_, execPhaWith_inPage params s page⟩
  | pla => exact ⟨_, execPlaWith_inPage params s page⟩
  | jsr target => exact ⟨_, execJsrWith_inPage params target s page⟩
  | rts => exact ⟨_, execRtsWith_inPage params s page⟩
  | _ => exact ⟨_, rfl⟩

/-! ### the frames -/

/-- Settles O43: in the table only the loads, ADC, AND and PLA write `a`, only the stack instructions write `sp`, only
`unimpl` writes `diag`, and no row writes `x` or `y`. -/
theorem registerFrame : Obligations.RegisterFrame := by
  intro i s t h
  cases exec_effect h with
  | ldaImm b | ldaZp b | ldaZpX b | adc b | and b =>
    exact ⟨rfl, rfl, fun other => by simpa using other b, fun _ _ _ _ => rfl, fun _ => rfl⟩
  | pla _ => exact ⟨rfl, rfl, fun _ other => absurd rfl other, fun _ other => absurd rfl other, fun _ => rfl⟩
  | pha _ => exact ⟨rfl, rfl, fun _ _ => rfl, fun other => absurd rfl other, fun _ => rfl⟩
  | rts _ => exact ⟨rfl, rfl, fun _ _ => rfl, fun _ _ other => absurd rfl other, fun _ => rfl⟩
  | jsr w _ => exact ⟨rfl, rfl, fun _ _ => rfl, fun _ _ _ other => absurd rfl (other w), fun _ => rfl⟩
  | unimpl op => exact ⟨rfl, rfl, fun _ _ => rfl, fun _ _ _ _ => rfl, fun other => absurd rfl (other op)⟩
  | _ => exact ⟨rfl, rfl, fun _ _ => rfl, fun _ _ _ _ => rfl, fun _ => rfl⟩

/-- Settles O44: the flags in the table are those of SetZN, ADC, CMP and the four clears, each of which leaves the
other flags, and the rows of all other instructions have the old flags. -/
theorem flagFrame : Obligations.FlagFrame := by
  intro i s t h
  cases exec_effect h with
  | ldaImm b | ldaZp b | ldaZpX b | and b | decZp b | inc b =>
    exact ⟨fun _ _ => rfl, fun other => by simpa using other b, fun _ _ => rfl, fun _ => rfl, fun _ => rfl, rfl⟩
  | adc | cmp | clc | cld | cli | clv => simp
  | _ => exact ⟨fun _ _ => rfl, fun _ => ⟨rfl, rfl⟩, fun _ _ => rfl, fun _ => rfl, fun _ => rfl, rfl⟩

/-! ### the program counter -/

theorem format_of_mem_branchRows {i : Instr} {taken : Bool} {off : Byte} {f : Flags}
    (row : (i, taken) ∈ branchRows off f) : i.format = .rel := by
  simp only [branchRows, List.mem_cons, Prod.mk.injEq, List.not_mem_nil, or_false] at row
  rcases row with ⟨rfl, -⟩ | ⟨rfl, -⟩ | ⟨rfl, -⟩ | ⟨rfl, -⟩ | ⟨rfl, -⟩ | ⟨rfl, -⟩ | ⟨rfl, -⟩ | ⟨rfl, -⟩ <;> rfl

/-- Settles O46, by the table's `pc` column: one byte for the implied format, two for those with an operand byte, and
the opcode with the byte stepped over for NOP, PHA and PLA. -/
theorem programCounterAdvance : Obligations.ProgramCounterAdvance := by
  intro i s t h notRel notAbs notRts
  cases exec_effect h with
  | branch off row => exact absurd (format_of_mem_branchRows row) notRel
  | jsr | jmp => exact absurd rfl notAbs
  | rts => exact absurd rfl notRts
  | nop | pha | pla =>
    show (s.pc + 1 + 1).toNat = (s.pc.toNat + 1 + 1) % 65536
    bv_omega
  | clc | cld | cli | clv | unimpl => exact BitVec.toNat_add s.pc 1
  | _ => exact BitVec.toNat_add s.pc 2

/-! ### the invariant and the reset facts -/

/-- The invariant of one instruction: what the table writes to `sp` comes from ModifySP, and what it does to memory is
writes at 16-bit addresses. -/
theorem exec_keeps_inv {i : Instr} {s t : State} (inv : s.Inv) (h : exec i s = .next t) : t.Inv := by
  obtain ⟨page, canonical⟩ := inv
  cases exec_effect h with
  | decZp | inc => exact ⟨page, Memory.wf_write _ _ _ canonical (BitVec.isLt _)⟩
  | pha => exact ⟨pushAddress_inPage _, Memory.wf_write _ _ _ canonical (BitVec.isLt _)⟩
  | jsr =>
    have lowWritten : Memory.wf (s.mem.write (jsrAddress s.sp).toNat (lowByte (jsrReturnWord (s.pc + 3)))) = true :=
      Memory.wf_write _ _ _ canonical (BitVec.isLt _)
    exact ⟨modifySp_inPage _, Memory.wf_write _ _ _ lowWritten (BitVec.isLt _)⟩
  | pla | rts => exact ⟨pulledSp_inPage _, canonical⟩
  | _ => exact ⟨page, canonical⟩

/-- Settles O50: a step is an `exec`. -/
theorem stepKeepsInvariant : Obligations.StepKeepsInvariant :=
  fun _ _ inv h => exec_keeps_inv inv h

/-- CLI leaves I clear and every other instruction leaves it as it was (44_flag_clear_nop.md R106). -/
theorem exec_keeps_clear_i {i : Instr} {s t : State} (clear : s.flags.i = false) (h : exec i s = .next t) :
    t.flags.i = false := by
  obtain ⟨-, -, -, keeps, -, -⟩ := flagFrame i s t h
  by_cases hi : i = .cli
  · subst hi; cases h; rfl
  · rw [keeps hi, clear]

/-- CLD leaves D clear and every other instruction leaves it as it was (44_flag_clear_nop.md R105). -/
theorem exec_keeps_clear_d {i : Instr} {s t : State} (clear : s.flags.d = false) (h : exec i s = .next t) :
    t.flags.d = false := by
  obtain ⟨-, -, -, -, keeps, -⟩ := flagFrame i s t h
  by_cases hi : i = .cld
  · subst hi; cases h; rfl
  · rw [keeps hi, clear]

/-- The reset facts of one instruction, from the two frames: X, Y and B have no writer, I and D only a clear. -/
theorem exec_keeps_neverWritten {i : Instr} {s t : State} (facts : s.NeverWritten) (h : exec i s = .next t) :
    t.NeverWritten := by
  obtain ⟨x0, y0, i0, d0, b0⟩ := facts
  obtain ⟨xKept, yKept, -, -, -⟩ := registerFrame i s t h
  obtain ⟨-, -, -, -, -, bKept⟩ := flagFrame i s t h
  exact ⟨xKept.trans x0, yKept.trans y0, exec_keeps_clear_i i0 h, exec_keeps_clear_d d0 h, bKept.trans b0⟩

/-- Settles O59: the invariant by O50's lemma, the reset facts by the frames. -/
theorem stepKeepsResetFacts : Obligations.StepKeepsResetFacts :=
  fun _ _ inv facts h => ⟨exec_keeps_inv inv h, exec_keeps_neverWritten facts h⟩

end Sys2Proof.Machine

/-! # A placed instruction, and the host's commands -/

namespace Sys2Proof.Machine

/-! ### placing an instruction -/

/-- Placing bytes changes memory only. -/
theorem placeBytes_frame (bytes : List Byte) (a : Word) (s : State) :
    placeBytes bytes a s = { s with mem := (placeBytes bytes a s).mem } := by
  induction bytes generalizing a s with
  | nil => rfl
  | cons b rest ih => exact ih (a + 1) (s.memWrite a b)

/-- Three bytes placed at the program counter are the three the fetch looks at. -/
theorem instrAt_placeBytes (b0 b1 b2 : Byte) (s : State) :
    instrAt (placeBytes [b0, b1, b2] s.pc s) = assembleWith params b0 b1 b2 := by
  have h01 : s.pc ≠ s.pc + 1 := by bv_omega
  have h02 : s.pc ≠ s.pc + 1 + 1 := by bv_omega
  have h12 : s.pc + 1 ≠ s.pc + 1 + 1 := by bv_omega
  have h2 : s.pc + 2 = s.pc + 1 + 1 := by bv_omega
  simp only [instrAt, placeBytes, memWrite_pc, h2, memRead_memWrite, h01, h02, h12, if_true, if_false]

/-- Three bytes are enough for every opcode (30_encoding.md R50). -/
theorem decodeWith_three (p : Params) (b0 b1 b2 : Byte) :
    decodeWith p [b0, b1, b2] = .ok (assembleWith p b0 b1 b2, [b1, b2].drop (operandBytesWith p b0)) :=
  if_neg (by simpa using operandBytesWith_le_two p b0)

/-- What a table word decodes to, in terms of its bytes. -/
theorem decodeTableWord_eq (nbits w : Nat) :
    ∃ b0 b1 b2 : Byte, tableBytes nbits w = [b0, b1, b2] ∧
      decodeTableWord nbits w = some (assembleWith params b0 b1 b2) := by
  refine ⟨_, _, _, rfl, ?_⟩
  simp only [decodeTableWord, tableBytes, decode, decodeWith_three]

/-- Settles O10: the bytes the word decodes from are placed where the fetch looks. -/
theorem placedInstructionRunsNext : Obligations.PlacedInstructionRunsNext := by
  intro s nbits w i hi
  obtain ⟨b0, b1, b2, hbytes, hdecode⟩ := decodeTableWord_eq nbits w
  have placed : s.withFetchWord nbits w = placeBytes [b0, b1, b2] s.pc s := by
    rw [← hbytes]; rfl
  refine ⟨?_, placeBytes_frame _ _ _⟩
  rw [step_eq, placed, instrAt_placeBytes, Option.some.inj (hdecode.symm.trans hi)]

/-! ### Execute -/

/-- The execute loop answers a next state, which has the invariant again, and the reset facts if they held: by
induction on the fuel, one `exec` a turn. -/
theorem executeLoop_keeps (fuel : Nat) (s : State) (inv : s.Inv) :
    ∃ t : State, executeLoop fuel s = .next t ∧ t.Inv ∧ (s.NeverWritten → t.NeverWritten) := by
  induction fuel generalizing s with
  | zero => exact ⟨s, rfl, inv, id⟩
  | succ fuel ih =>
    rcases le_or_gt s.cyc 0 with idle | busy
    · exact ⟨s, executeLoop_idle _ s idle, inv, id⟩
    · obtain ⟨u, hu⟩ := exec_goes_on (instrAt s) s inv.1
      obtain ⟨t, ht, invT, factsT⟩ := ih u (exec_keeps_inv inv hu)
      refine ⟨t, ?_, invT, fun facts => factsT (exec_keeps_neverWritten facts hu)⟩
      rw [executeLoop_turn fuel s busy, step_eq, hu]
      exact ht

/-! ### one command -/

theorem command_readByte_ready {a : Nat} (s : State) (inRange : a < 65536) :
    Block.command (.readByte a) (.ready s) = .next (.ready s, some (s.mem.read a)) := if_pos inRange

theorem command_writeByte_ready {a : Nat} (v : Byte) (s : State) (inRange : a < 65536) :
    Block.command (.writeByte a v) (.ready s) = .next (.ready { s with mem := s.mem.write a v }, none) :=
  if_pos inRange

/-- Settles O2. -/
theorem resetMeetsInvariant : Obligations.ResetMeetsInvariant :=
  ⟨⟨by decide, reset_mem_wf⟩, rfl, rfl, rfl, rfl, rfl⟩

/-- Settles O60, command by command: Reset by O2, Execute by its loop, a host write by the canonical form of a written
memory. -/
theorem commandIsServedAndKeepsFacts : Obligations.CommandIsServedAndKeepsFacts := by
  intro c s inv inRange
  cases c with
  | reset => exact ⟨resetCommand s, none, rfl, resetMeetsInvariant.1, fun _ => resetMeetsInvariant.2, by simp⟩
  | execute budget =>
    obtain ⟨t, ht, invT, factsT⟩ := executeLoop_keeps budget.toNat { s with cyc := budget } inv
    exact ⟨t, none, congrArg replyState ht, invT, factsT, by simp⟩
  | readByte a => exact ⟨s, some (s.mem.read a), command_readByte_ready s inRange, inv, id, by simp⟩
  | writeByte a v =>
    obtain ⟨page, canonical⟩ := inv
    exact ⟨{ s with mem := s.mem.write a v }, none, command_writeByte_ready v s inRange,
      ⟨page, Memory.wf_write _ _ _ canonical inRange⟩, id, by simp⟩

/-- A command on a block with a state that is not refused had its address in range (20_memory.md R37, U1). -/
theorem inRange_of_command_next {c : Command} {s : State} {answer : Block × Option Byte}
    (h : Block.command c (.ready s) = .next answer) : c.InRange := by
  cases c with
  | reset | execute => trivial
  | readByte | writeByte =>
    by_contra out
    cases (if_neg out).symm.trans h

/-! ### every run of the host's commands -/

/-- What is kept along a list of commands: a block that has a state has one with the invariant and the reset facts. -/
def Block.Kept (b : Block) : Prop := ∀ s : State, b = .ready s → s.Inv ∧ s.NeverWritten

theorem kept_constructed : Block.Kept .constructed := nofun

theorem kept_ready {s : State} (inv : s.Inv) (facts : s.NeverWritten) : Block.Kept (.ready s) := by
  rintro t ⟨⟩
  exact ⟨inv, facts⟩

/-- A command before the first Reset: Reset gives the reset state, a write in range is lost, the rest is refused. -/
theorem kept_command_constructed {c : Command} {b : Block} {out : Option Byte}
    (h : Block.command c .constructed = .next (b, out)) : b.Kept := by
  cases c with
  | reset => cases h; exact kept_ready resetMeetsInvariant.1 resetMeetsInvariant.2
  | execute budget => cases h
  | readByte a =>
    simp only [Block.command] at h
    split at h <;> cases h
  | writeByte a v =>
    simp only [Block.command] at h
    split at h <;> cases h
    exact kept_constructed

/-- Every command that is carried out keeps what is kept. -/
theorem kept_command {c : Command} {b b' : Block} {out : Option Byte} (kept : b.Kept)
    (h : Block.command c b = .next (b', out)) : b'.Kept := by
  cases b with
  | constructed => exact kept_command_constructed h
  | ready s =>
    obtain ⟨inv, facts⟩ := kept s rfl
    obtain ⟨t, out', served, invT, factsT, -⟩ :=
      commandIsServedAndKeepsFacts c s inv (inRange_of_command_next h)
    cases served.symm.trans h
    exact kept_ready invT (factsT facts)

/-- The first command of a list that is carried out whole is carried out, and the rest is from the block it leaves. -/
theorem commands_cons_next {c : Command} {rest : List Command} {b b' : Block} {out : List Byte}
    (h : Block.commands (c :: rest) b = .next (b', out)) :
    ∃ (mid : Block) (first : Option Byte) (more : List Byte),
      Block.command c b = .next (mid, first) ∧ Block.commands rest mid = .next (b', more) := by
  simp only [Block.commands] at h
  split at h
  · rename_i mid first hfirst
    split at h
    · rename_i last more hrest
      cases h
      exact ⟨mid, first, more, hfirst, hrest⟩
    · cases h
    · cases h
  · cases h
  · cases h

/-- A list of commands that is carried out keeps what is kept, by induction on the list. -/
theorem kept_commands {cs : List Command} {b b' : Block} {out : List Byte} (kept : b.Kept)
    (h : Block.commands cs b = .next (b', out)) : b'.Kept := by
  induction cs generalizing b out with
  | nil => cases h; exact kept
  | cons c rest ih =>
    obtain ⟨mid, first, more, hfirst, hrest⟩ := commands_cons_next h
    exact ih (kept_command kept hfirst) hrest

/-- Settles O56: nothing has to be kept at construction, and every list of commands keeps it. -/
theorem reachableStatesKeepResetFacts : Obligations.ReachableStatesKeepResetFacts := by
  rintro s ⟨cs, out, h⟩
  exact kept_commands kept_constructed h s rfl

/-! ### before the first Reset, and the host's access to memory -/

/-- Settles O57. -/
theorem nothingRunsBeforeReset : Obligations.NothingRunsBeforeReset :=
  ⟨fun _ => rfl, fun _ inRange => if_pos inRange⟩

/-- A host address in range and the core's word for it name one byte. -/
theorem memRead_ofNat {a : Nat} (s : State) (inRange : a < 65536) :
    s.memRead (BitVec.ofNat 16 a) = s.mem.read a := by
  rw [State.memRead, BitVec.toNat_ofNat, Nat.mod_eq_of_lt inRange]

/-- Settles O58, by the law of a read after a write. -/
theorem hostMemoryAccess : Obligations.HostMemoryAccess := by
  intro s a v
  constructor
  · intro inRange
    refine ⟨{ s with mem := s.mem.write a v }, command_writeByte_ready v s inRange, rfl, ?_, ?_, ?_⟩
    · rw [memRead_ofNat _ inRange, Memory.read_write, if_pos rfl]
    · rw [command_readByte_ready _ inRange, Memory.read_write, if_pos rfl]
    · intro b inRangeB other
      rw [command_readByte_ready _ inRangeB, Memory.read_write, if_neg other, memRead_ofNat _ inRangeB]
  · intro outOfRange
    exact ⟨if_neg (by omega), if_neg (by omega)⟩

end Sys2Proof.Machine

/-! # What a step stores, and which bytes it reads (20_memory.md R34, R35, R43)

`storedBytes` gives R35's stores their values; `exec_mem` says that they are all an instruction does to memory, and
`exec_with_mem` that a change of memory outside the tabled reads changes nothing else. -/

/-! ### operand bytes that are not fetched have no influence -/

namespace Sys2Proof

/-- A handler takes no operand byte that its format does not fetch. -/
theorem Handler.instr_congr (h : Handler) {b1 b2 c1 c2 : Byte} (first : 1 ≤ h.format.operandBytes → b1 = c1)
    (second : 2 ≤ h.format.operandBytes → b2 = c2) : h.instr b1 b2 = h.instr c1 c2 := by
  cases h with
  | clc | cld | cli | clv | nop | pha | pla | rts => rfl
  | jsr | jmp => rw [first (by decide), second (by decide)]
  | _ => rw [first (by decide)]; rfl

/-- An instruction does not depend on bytes that its opcode does not fetch (30_encoding.md R53). -/
theorem assembleWith_congr (p : Params) (op : Byte) {b1 b2 c1 c2 : Byte}
    (first : 1 ≤ operandBytesWith p op → b1 = c1) (second : 2 ≤ operandBytesWith p op → b2 = c2) :
    assembleWith p op b1 b2 = assembleWith p op c1 c2 := by
  unfold operandBytesWith at first second
  unfold assembleWith
  cases hop : p.opc.lookup op with
  | none => rfl
  | some h =>
    simp only [hop] at first second
    exact h.instr_congr first second

end Sys2Proof

namespace Sys2Proof.Machine

/-! ### one write -/

/-- Settles O12: the law of a read after a write, for each primitive that reads. -/
theorem memWriteSetsOneByte : Obligations.MemWriteSetsOneByte := by
  intro s a v
  have written : (s.memWrite a v).memRead a = v := by rw [memRead_memWrite, if_pos rfl]
  refine ⟨written, fun b other => by rw [memRead_memWrite, if_neg other], rfl, written, written, ?_, ?_⟩
  · exact (lowByte_wordOf _ _).trans written
  · have last : a - 1 + 1 = a := BitVec.sub_add_cancel a 1
    refine (highByte_wordOf _ _).trans ?_
    show (s.memWrite a v).memRead (a - 1 + 1) = v
    rw [last, written]

/-- Settles O11: the same law at the three addresses a fetch looks at. -/
theorem storeIsSeenByNextFetch : Obligations.StoreIsSeenByNextFetch := by
  intro s a v seen
  have read (b : Word) : (s.memWrite a v).memRead b = seen b := memRead_memWrite s a b v
  simp only [instrAt, memWrite_pc, read]

/-! ### several writes -/

/-- Bytes written one after another, each at its own address. -/
def Memory.writeAll : List (Word × Byte) → Memory → Memory
  | [], m => m
  | (a, v) :: rest, m => Memory.writeAll rest (m.write a.toNat v)

/-- An address that is not written to reads as before. -/
theorem Memory.read_writeAll_of_notMem {stores : List (Word × Byte)} {a : Word} (m : Memory)
    (outside : a ∉ stores.map Prod.fst) : (Memory.writeAll stores m).read a.toNat = m.read a.toNat := by
  induction stores generalizing m with
  | nil => rfl
  | cons store rest ih =>
    obtain ⟨b, v⟩ := store
    simp only [List.map_cons, List.mem_cons, not_or] at outside
    obtain ⟨other, outsideRest⟩ := outside
    rw [Memory.writeAll, ih _ outsideRest, Memory.read_write, if_neg (mt BitVec.toNat_inj.mp other)]

/-- The same writes to two memories leave the same byte where something was written and where the two agreed. -/
theorem Memory.read_writeAll_congr {stores : List (Word × Byte)} {a : Word} {m m' : Memory}
    (h : a ∈ stores.map Prod.fst ∨ m'.read a.toNat = m.read a.toNat) :
    (Memory.writeAll stores m').read a.toNat = (Memory.writeAll stores m).read a.toNat := by
  induction stores generalizing m m' with
  | nil => exact h.resolve_left List.not_mem_nil
  | cons store rest ih =>
    obtain ⟨b, v⟩ := store
    refine ih ?_
    by_cases written : a = b
    · exact .inr (by simp [written, Memory.read_write])
    · simpa [written, Memory.read_write, BitVec.toNat_inj] using h

/-! ### the stores of one instruction -/

/-- What an instruction stores, from the state before it: the stores of R35, each with its byte. -/
def storedBytes (i : Instr) (s : State) : List (Word × Byte) :=
  match i with
  | .decZp zp => [(zpAddress zp, s.memRead (zpAddress zp) - 1)]
  | .inc _ => [(incAddress (s.pc + 2), s.memRead (incAddress (s.pc + 2)) + 1)]
  | .pha => [(pushAddress s.sp, s.a)]
  | .jsr _ =>
    [(jsrAddress s.sp, lowByte (jsrReturnWord (s.pc + 3))), (jsrAddress s.sp + 1, highByte (jsrReturnWord (s.pc + 3)))]
  | _ => []

/-- No branch stores a byte. -/
theorem storedBytes_of_rel {i : Instr} (s : State) (rel : i.format = .rel) : storedBytes i s = [] := by
  cases i with
  | decZp | inc | pha | jsr => cases rel
  | _ => rfl

/-- What `exec` does to memory: its stores, in order, and nothing else. -/
theorem exec_mem {i : Instr} {s t : State} (h : exec i s = .next t) :
    t.mem = Memory.writeAll (storedBytes i s) s.mem := by
  cases exec_effect h with
  | branch off row => rw [storedBytes_of_rel s (format_of_mem_branchRows row)]; rfl
  | _ => rfl

/-- The addresses stored to are those R35 lists. -/
theorem storedBytes_addresses (i : Instr) (s : State) : (storedBytes i s).map Prod.fst = storeAddresses i s := by
  cases i with
  | inc operand => exact congrArg (fun a => [a]) (incAddress_next s.pc)
  | _ => rfl

/-- Settles O45: memory changes by the instruction's stores only, and an instruction not named stores nothing. -/
theorem memoryFrame : Obligations.MemoryFrame := by
  intro i s t h
  constructor
  · intro a outside
    rw [← storedBytes_addresses] at outside
    rw [State.memRead, exec_mem h]
    exact Memory.read_writeAll_of_notMem s.mem outside
  · intro notRmw notPha notJsr
    rw [exec_mem h]
    cases i with
    | decZp b | inc b => simpa using notRmw b
    | pha => exact absurd rfl notPha
    | jsr w => exact absurd rfl (notJsr w)
    | _ => rfl

/-! ### the reads of one instruction -/

theorem mem_readAddresses {i : Instr} {s : State} {a : Word} :
    a ∈ readAddresses i s ↔ readOf a ∈ accesses i s := by
  simp only [readAddresses, List.mem_map, List.mem_filter, beq_iff_eq]
  constructor
  · rintro ⟨⟨kind, address⟩, ⟨listed, rfl⟩, rfl⟩
    exact listed
  · intro listed
    exact ⟨readOf a, ⟨listed, rfl⟩, rfl⟩

/-- The opcode is read. -/
theorem opcode_mem_readAddresses (i : Instr) (s : State) : s.pc ∈ readAddresses i s :=
  mem_readAddresses.mpr (List.mem_cons_self ..)

/-- The first operand byte is read by a format that has one (30_encoding.md R50). -/
theorem operand1_mem_readAddresses {i : Instr} (s : State) (h : 1 ≤ i.format.operandBytes) :
    s.pc + 1 ∈ readAddresses i s := by
  rw [mem_readAddresses]
  cases i with
  | clc | cld | cli | clv | nop | pha | pla | rts | unimpl => nomatch h
  | _ => simp [accesses]

/-- The second operand byte is read by the format that has two. -/
theorem operand2_mem_readAddresses {i : Instr} (s : State) (h : 2 ≤ i.format.operandBytes) :
    s.pc + 2 ∈ readAddresses i s := by
  rw [mem_readAddresses]
  cases i with
  | jsr | jmp => simp [accesses]
  | _ => nomatch h

/-! ### branches and memory -/

/-- A row of the table of branches says what the branch does. -/
theorem exec_of_mem_branchRows {i : Instr} {taken : Bool} {off : Byte} {s : State}
    (row : (i, taken) ∈ branchRows off s.flags) : exec i s = .next (branchIf taken off s) := by
  simp only [branchRows, List.mem_cons, Prod.mk.injEq, List.not_mem_nil, or_false] at row
  rcases row with ⟨rfl, rfl⟩ | ⟨rfl, rfl⟩ | ⟨rfl, rfl⟩ | ⟨rfl, rfl⟩ | ⟨rfl, rfl⟩ | ⟨rfl, rfl⟩ | ⟨rfl, rfl⟩ |
    ⟨rfl, rfl⟩ <;>
    simp [exec, execBcc, execBcs, execBeq, execBne, execBmi, execBpl, execBvc, execBvs, Flags.carryClear,
      Flags.carrySet, Flags.isZero, Flags.notZero, Flags.minus, Flags.plus, Flags.overflowClear, Flags.overflowSet]

/-- A branch reads no byte of memory beyond its own. -/
theorem branchIf_with_mem (cond : Bool) (off : Byte) (s : State) (m : Memory) :
    branchIf cond off { s with mem := m } =
      { s with pc := (branchIf cond off s).pc, cyc := (branchIf cond off s).cyc, mem := m } := by
  cases cond <;> rfl

/-! ### two memories that agree where the instruction reads -/

section
variable {s : State} {m : Memory}

/-- The fetch gives the same instruction. -/
theorem instrAt_with_mem
    (agree : ∀ a ∈ readAddresses (instrAt s) s, State.memRead { s with mem := m } a = s.memRead a) :
    instrAt { s with mem := m } = instrAt s := by
  have bytes : (instrAt s).format.operandBytes = operandBytesWith params (s.memRead s.pc) :=
    assembleWith_operandBytes ..
  show assembleWith params (State.memRead { s with mem := m } s.pc) _ _ = _
  rw [agree _ (opcode_mem_readAddresses _ s)]
  exact assembleWith_congr params _
    (fun h => agree _ (operand1_mem_readAddresses s (bytes ▸ h)))
    (fun h => agree _ (operand2_mem_readAddresses s (bytes ▸ h)))

variable {i : Instr} (agree : ∀ a ∈ readAddresses i s, State.memRead { s with mem := m } a = s.memRead a)
include agree

/-- The stores are the same. -/
theorem storedBytes_with_mem : storedBytes i { s with mem := m } = storedBytes i s := by
  cases i with
  | decZp zp =>
    have read := agree (zpAddress zp) (by simp [mem_readAddresses, accesses])
    exact congrArg (fun v => [(zpAddress zp, v - 1)]) read
  | inc operand =>
    have read := agree (incAddress (s.pc + 2)) (by rw [incAddress_next]; simp [mem_readAddresses, accesses])
    exact congrArg (fun v => [(incAddress (s.pc + 2), v + 1)]) read
  | _ => rfl

/-- The instruction does the same but to memory. -/
theorem exec_with_mem {t : State} (h : exec i s = .next t) :
    exec i { s with mem := m } = .next { t with mem := Memory.writeAll (storedBytes i s) m } := by
  rw [← storedBytes_with_mem agree]
  cases exec_effect h with
  | branch off row =>
    rw [storedBytes_of_rel _ (format_of_mem_branchRows row), exec_of_mem_branchRows (s := { s with mem := m }) row,
      branchIf_with_mem]
    rfl
  | ldaZp zp | decZp zp =>
    have read := agree (zpAddress zp) (by simp [mem_readAddresses, accesses])
    rw [← read]
    rfl
  | ldaZpX zp =>
    have read := agree (zpxAddressWith params zp s.x) (by simp [mem_readAddresses, accesses])
    rw [← read]
    rfl
  | inc operand =>
    have read := agree (incAddress (s.pc + 2)) (by rw [incAddress_next]; simp [mem_readAddresses, accesses])
    rw [← read]
    rfl
  | pha page => exact execPhaWith_inPage params _ page
  | pla page =>
    have read := agree s.sp (by simp [mem_readAddresses, accesses])
    rw [← read]
    exact execPlaWith_inPage params _ page
  | jsr target page => exact execJsrWith_inPage params target _ page
  | rts page =>
    have low := agree s.sp (by simp [mem_readAddresses, accesses])
    have high := agree (pulledSp s.sp) (by simp [mem_readAddresses, accesses])
    rw [← low, ← high]
    exact execRtsWith_inPage params _ page
  | _ => rfl

end

/-- Settles O48: the two memories give the same instruction, which does the same and stores the same bytes. -/
theorem stepReadsOnlyListedBytes : Obligations.StepReadsOnlyListedBytes := by
  intro s t m agree h
  refine ⟨_, by rw [step_eq, instrAt_with_mem agree]; exact exec_with_mem agree h, rfl, ?_⟩
  intro a listed
  rw [← storedBytes_addresses] at listed
  rw [State.memRead, State.memRead, exec_mem h]
  exact Memory.read_writeAll_congr listed

end Sys2Proof.Machine

/-! # Decoding and encoding (30_encoding.md R50 to R57)

Everything about the decoder follows from `decodeWith_eq_ok_iff`: what decodes is an opcode byte, exactly the operand
bytes that byte asks for, and the rest. The encoder writes the same shape, `opcodeWith` and `Instr.operand`, and the first
three sections say how these undo `lookup` and `Handler.instr`. -/

namespace Sys2Proof

/-! ### the opcode map -/

section
variable {p : Params} {op : Byte} {h : Handler}

/-- A byte's handler has its row in the map. -/
theorem mem_opc_of_lookup (found : p.opc.lookup op = some h) : (op, h) ∈ p.opc := by
  obtain ⟨before, after, position, -⟩ := List.lookup_eq_some_iff.mp found
  rw [position]
  exact List.mem_append_right before (List.mem_cons_self ..)

/-- In a map that lists no byte twice, a row is the byte's one meaning (R73: the opcode byte is the dispatch key). -/
theorem lookup_of_mem_opc (once : (p.opc.map Prod.fst).Nodup) (row : (op, h) ∈ p.opc) :
    p.opc.lookup op = some h := by
  cases found : p.opc.lookup op with
  | none => simpa using List.lookup_eq_none_iff.mp found _ row
  | some h' =>
    have sameRow := List.inj_on_of_nodup_map once (mem_opc_of_lookup found) row rfl
    exact congrArg (fun row => some row.2) sameRow

/-- The encoder takes a listed handler's opcode from a row of the map. -/
theorem opcodeWith_mem_opc (listed : h ∈ p.opc.map Prod.snd) : (opcodeWith p h, h) ∈ p.opc := by
  unfold opcodeWith
  cases found : p.opc.find? (fun row => row.2 == h) with
  | none =>
    obtain ⟨row, inMap, rfl⟩ := List.mem_map.mp listed
    simpa using List.find?_eq_none.mp found row inMap
  | some row =>
    have handlerOfRow : row.2 = h := by simpa using List.find?_some found
    rw [← handlerOfRow]
    exact List.mem_of_find?_eq_some found

/-- The decoder finds the handler under the opcode the encoder writes. -/
theorem lookup_opcodeWith (complete : OpcComplete p.opc) : p.opc.lookup (opcodeWith p h) = some h :=
  lookup_of_mem_opc complete.1 (opcodeWith_mem_opc (complete.2 h))

/-- In a map that lists no handler twice, the encoder writes the byte the decoder found it under. -/
theorem opcodeWith_of_lookup (once : (p.opc.map Prod.snd).Nodup) (found : p.opc.lookup op = some h) :
    opcodeWith p h = op := by
  have row := mem_opc_of_lookup found
  have sameRow := List.inj_on_of_nodup_map once (opcodeWith_mem_opc (List.mem_map_of_mem row)) row rfl
  exact congrArg Prod.fst sameRow

end

/-- The map of R54 has a row for each handler and none for a byte twice. -/
theorem opcComplete_params : OpcComplete params.opc :=
  ⟨by decide, fun h => by cases h <;> decide⟩

/-- The map of R54 has no handler twice. -/
theorem nodup_handlers_params : (params.opc.map Prod.snd).Nodup := by decide

/-! ### operands -/

/-- An instruction has as many operand bytes as its format says (R50). -/
theorem Instr.length_operand (i : Instr) : i.operand.length = i.format.operandBytes := by
  cases i <;> rfl

theorem Instr.format_of_handler {i : Instr} {h : Handler} (hi : i.handler = some h) : i.format = h.format := by
  rw [Instr.format, hi]

/-- The only instruction without a handler is an unimplemented opcode (R55). -/
theorem Instr.eq_unimpl_of_handler {i : Instr} (hi : i.handler = none) : ∃ op : Byte, i = .unimpl op := by
  cases i with
  | unimpl op => exact ⟨op, rfl⟩
  | _ => cases hi

theorem Handler.handler_instr (h : Handler) (b1 b2 : Byte) : (h.instr b1 b2).handler = some h := by
  cases h <;> rfl

/-- An instruction is its handler's, at its own operand bytes; a word operand is put together from its two. -/
theorem Handler.instr_operand {i : Instr} {h : Handler} (hi : i.handler = some h) :
    h.instr (i.operand.getD 0 0) (i.operand.getD 1 0) = i := by
  cases i with
  | jsr w => cases hi; exact congrArg Instr.jsr (Machine.wordOf_high_low w)
  | jmp w => cases hi; exact congrArg Instr.jmp (Machine.wordOf_high_low w)
  | unimpl op => cases hi
  | _ => cases hi; rfl

/-- A handler's instruction has the operand bytes it was made of, as many as the format has. -/
theorem Handler.operand_instr (h : Handler) (b1 b2 : Byte) :
    (h.instr b1 b2).operand = [b1, b2].take h.format.operandBytes := by
  cases h with
  | jsr | jmp => simp [Handler.instr, Instr.operand, Handler.format, Format.operandBytes]
  | _ => rfl

/-! ### what an opcode byte stands for -/

section
variable {p : Params} {op : Byte} {h : Handler}

theorem assembleWith_of_lookup (found : p.opc.lookup op = some h) (b1 b2 : Byte) :
    assembleWith p op b1 b2 = h.instr b1 b2 := by
  rw [assembleWith, found]

theorem assembleWith_of_lookup_none (free : p.opc.lookup op = none) (b1 b2 : Byte) :
    assembleWith p op b1 b2 = .unimpl op := by
  rw [assembleWith, free]

theorem operandBytesWith_of_lookup (found : p.opc.lookup op = some h) :
    operandBytesWith p op = h.format.operandBytes := by
  rw [operandBytesWith, found]

theorem operandBytesWith_of_lookup_none (free : p.opc.lookup op = none) : operandBytesWith p op = 0 := by
  rw [operandBytesWith, free]

end

/-- An instruction with a handler is written as that handler's opcode and the operand bytes. -/
theorem encodeWith_of_handler (p : Params) {i : Instr} {h : Handler} (hi : i.handler = some h) :
    encodeWith p i = opcodeWith p h :: i.operand := by
  cases i with
  | unimpl op => cases hi
  | _ => cases hi; rfl

/-- An instruction with a handler is well-formed whatever its operand (R52). -/
theorem wfWith_of_handler (p : Params) {i : Instr} {h : Handler} (hi : i.handler = some h) :
    i.wfWith p = true := by
  cases i with
  | unimpl op => cases hi
  | _ => rfl

/-- What an opcode byte stands for is well-formed (R56: no byte value is rejected). -/
theorem wfWith_assembleWith (p : Params) (op b1 b2 : Byte) : (assembleWith p op b1 b2).wfWith p = true := by
  cases found : p.opc.lookup op with
  | none => rw [assembleWith_of_lookup_none found, Instr.wfWith, found, Option.isNone_none]
  | some h =>
    rw [assembleWith_of_lookup found]
    exact wfWith_of_handler p (h.handler_instr b1 b2)

/-! ### the decoder -/

/-- At most two operand bytes are the first two, as many as there are. -/
theorem take_getD_eq_self {operand : List Byte} (short : operand.length ≤ 2) :
    [operand.getD 0 0, operand.getD 1 0].take operand.length = operand := by
  match operand, short with
  | [], _ => rfl
  | [b1], _ => rfl
  | [b1, b2], _ => rfl

/-- An opcode byte with the operand bytes it asks for decodes to what it stands for, and all that follows is given
back (R53). -/
theorem decodeWith_append {p : Params} {op : Byte} {operand : List Byte}
    (len : operand.length = operandBytesWith p op) (rest : List Byte) :
    decodeWith p (op :: operand ++ rest) =
      .ok (assembleWith p op (operand.getD 0 0) (operand.getD 1 0), rest) := by
  have enough : ¬ (operand ++ rest).length < operandBytesWith p op := by simp [← len]
  have operandOnly : assembleWith p op ((operand ++ rest).getD 0 0) ((operand ++ rest).getD 1 0) =
      assembleWith p op (operand.getD 0 0) (operand.getD 1 0) :=
    assembleWith_congr p op
      (fun h => List.getD_append _ _ _ _ (len ▸ h)) (fun h => List.getD_append _ _ _ _ (len ▸ h))
  rw [List.cons_append, decodeWith, if_neg enough, operandOnly, ← len, List.drop_left]

/-- An opcode byte with fewer bytes than it asks for is rejected by name (log 24). -/
theorem decodeWith_short {p : Params} {op : Byte} {short : List Byte} (few : short.length < operandBytesWith p op) :
    decodeWith p (op :: short) = .error .operandMissing :=
  if_pos few

/-- The whole decoder: a list that decodes is an opcode byte, exactly the operand bytes this byte asks for, and the rest
(R53). -/
theorem decodeWith_eq_ok_iff {p : Params} {bytes rest : List Byte} {i : Instr} :
    decodeWith p bytes = .ok (i, rest) ↔
      ∃ (op : Byte) (operand : List Byte), bytes = op :: operand ++ rest ∧
        operand.length = operandBytesWith p op ∧ assembleWith p op (operand.getD 0 0) (operand.getD 1 0) = i := by
  constructor
  · intro decodes
    cases bytes with
    | nil => cases decodes
    | cons op tail =>
      have enough : operandBytesWith p op ≤ tail.length := by
        by_contra few
        rw [decodeWith_short (by omega)] at decodes
        cases decodes
      have len : (tail.take (operandBytesWith p op)).length = operandBytesWith p op := List.length_take_of_le enough
      have tailSplit : op :: tail = op :: tail.take (operandBytesWith p op) ++ tail.drop (operandBytesWith p op) := by
        rw [List.cons_append, List.take_append_drop]
      rw [tailSplit, decodeWith_append len] at decodes
      cases decodes
      exact ⟨op, _, tailSplit, len, rfl⟩
  · rintro ⟨op, operand, rfl, len, rfl⟩
    exact decodeWith_append len rest

/-- A byte with no handler decodes as the unimplemented opcode, with no operand (R55). -/
theorem decodeWith_of_lookup_none {p : Params} {op : Byte} (free : p.opc.lookup op = none) (rest : List Byte) :
    decodeWith p (op :: rest) = .ok (.unimpl op, rest) :=
  decodeWith_eq_ok_iff.mpr
    ⟨op, [], rfl, (operandBytesWith_of_lookup_none free).symm, assembleWith_of_lookup_none free _ _⟩

/-! ### the round trips -/

/-- Settles O4: an unimplemented opcode stands for itself; any other instruction is written as its handler's opcode,
under which a complete map has that handler, and the handler puts the operand together again. -/
theorem decodeAfterEncodeIsIdentity : Obligations.DecodeAfterEncodeIsIdentity := by
  refine ⟨opcComplete_params, fun p complete i rest wf => ?_⟩
  cases hi : i.handler with
  | none =>
    obtain ⟨op, rfl⟩ := Instr.eq_unimpl_of_handler hi
    have free : p.opc.lookup op = none := Option.isNone_iff_eq_none.mp wf
    exact decodeWith_of_lookup_none free rest
  | some h =>
    have found : p.opc.lookup (opcodeWith p h) = some h := lookup_opcodeWith complete
    have len : i.operand.length = operandBytesWith p (opcodeWith p h) := by
      rw [i.length_operand, Instr.format_of_handler hi, operandBytesWith_of_lookup found]
    rw [encodeWith_of_handler p hi]
    exact decodeWith_eq_ok_iff.mpr
      ⟨_, _, rfl, len, (assembleWith_of_lookup found _ _).trans (Handler.instr_operand hi)⟩

/-- What an opcode byte and its operand bytes stand for is written as these bytes, in a map that has no handler
twice. -/
theorem encodeWith_assembleWith {p : Params} (once : (p.opc.map Prod.snd).Nodup) {op : Byte} {operand : List Byte}
    (len : operand.length = operandBytesWith p op) :
    encodeWith p (assembleWith p op (operand.getD 0 0) (operand.getD 1 0)) = op :: operand := by
  cases found : p.opc.lookup op with
  | none =>
    rw [operandBytesWith_of_lookup_none found] at len
    rw [assembleWith_of_lookup_none found, List.eq_nil_of_length_eq_zero len]
    rfl
  | some h =>
    have taken := take_getD_eq_self (len.trans_le (operandBytesWith_le_two p op))
    rw [len, operandBytesWith_of_lookup found] at taken
    rw [assembleWith_of_lookup found, encodeWith_of_handler p (h.handler_instr _ _), opcodeWith_of_lookup once found,
      h.operand_instr, taken]

/-- Settles O5: the bytes read are an opcode and its operand, which encode back to themselves. -/
theorem decodedBytesReencode : Obligations.DecodedBytesReencode := by
  intro bytes rest i decodes
  obtain ⟨op, operand, rfl, len, rfl⟩ := decodeWith_eq_ok_iff.mp decodes
  refine ⟨wfWith_assembleWith params op _ _, ?_⟩
  rw [encode, encodeWith_assembleWith nodup_handlers_params len]

/-! ### lengths -/

/-- Settles O6: the length is one more than the operand bytes, which depend on the opcode byte alone. -/
theorem opcodeByteAloneGivesLength : Obligations.OpcodeByteAloneGivesLength := by
  intro op
  have atMostTwo := operandBytesWith_le_two params op
  refine ⟨1 + operandBytesWith params op, by omega, by omega, fun operand len => ?_, fun short few => ?_⟩
  · refine ⟨assembleWith params op (operand.getD 0 0) (operand.getD 1 0), ?_, decodeWith_append (by omega)⟩
    rw [Instr.length, assembleWith_operandBytes]
  · exact decodeWith_short (by omega)

/-- What decodes takes as many bytes as the instruction's length says. -/
theorem length_of_decodeWith {p : Params} {bytes rest : List Byte} {i : Instr}
    (decodes : decodeWith p bytes = .ok (i, rest)) : bytes.length = rest.length + i.length := by
  obtain ⟨op, operand, rfl, len, rfl⟩ := decodeWith_eq_ok_iff.mp decodes
  rw [Instr.length, assembleWith_operandBytes, ← len, List.cons_append, List.length_cons, List.length_append]
  omega

/-- Settles O7: the 26 are counted, the 230 are the rest of the 256, and the table of lengths is that of the formats. -/
theorem encodingSpaceIsWhole : Obligations.EncodingSpaceIsWhole := by
  have implemented :
      ((List.range 256).filter (fun n => (params.opc.lookup (BitVec.ofNat 8 n)).isSome)).length = 26 := by decide
  refine ⟨implemented, ?_, fun op rest free => decodeWith_of_lookup_none free rest, fun bytes rest i decodes => ?_⟩
  · have total := List.length_eq_length_filter_add (l := List.range 256)
      (fun n => (params.opc.lookup (BitVec.ofNat 8 n)).isSome)
    rw [List.length_range, implemented] at total
    omega
  · rw [length_of_decodeWith decodes, Instr.length]
    cases i.format <;> rfl

/-- Settles O3: the words are the spec's, and the decoder is run on each. -/
theorem specWordsDecode : Obligations.SpecWordsDecode := by
  unfold Obligations.SpecWordsDecode
  and_intros <;> rfl

end Sys2Proof

namespace Sys2Proof.Machine

/-! ### the assembler's operand of a branch -/

/-- An offset within a signed byte survives the cut to a byte and the sign extension (R52, R57). -/
theorem sext16_setWidth {d : Word} (low : -128 ≤ d.toInt) (high : d.toInt ≤ 127) : sext16 (d.setWidth 8) = d := by
  apply BitVec.eq_of_toInt_eq
  rw [sext16, BitVec.toInt_signExtend_of_le (by decide), BitVec.toInt_setWidth,
    ← Int.bmod_bmod_of_dvd (by decide : 2 ^ 8 ∣ 2 ^ 16), ← BitVec.toInt_eq_toNat_bmod]
  exact Int.bmod_eq_of_le low (Int.lt_add_one_of_le high)

/-- The branch's target with the operand of R57 is the label. -/
theorem branchTarget_relOperand {pc label : Word} (low : -128 ≤ (label.toNat : Int) - (pc.toNat + 2))
    (high : (label.toNat : Int) - (pc.toNat + 2) ≤ 127) : branchTarget (pc + 2) (relOperand pc label) = label := by
  have distance : (label - (pc + 2)).toInt = (label.toNat : Int) - (pc.toNat + 2) := by
    rw [BitVec.toInt_eq_toNat_cond]
    bv_omega
  rw [branchTarget, relOperand, sext16_setWidth (by omega) (by omega), BitVec.add_comm, BitVec.sub_add_cancel]

/-- Settles O26: a taken branch goes to its target, and that is the label. -/
theorem assembledBranchReachesLabel : Obligations.AssembledBranchReachesLabel := by
  rintro s label ⟨i, taken⟩ low high row rfl
  refine ⟨branchIf true (relOperand s.pc label) s, exec_of_mem_branchRows row, ?_⟩
  rw [branchIf_true_pc, branchTarget_relOperand low high]

end Sys2Proof.Machine

/-! # Fetch, decode and the execute loop (40_fetch_decode_execute.md R60 to R76)

A step is charged what R160's table says, one to five cycles, so a loop with as much fuel as budget never runs out of
fuel: that is `executeLoop_ends` for what it ends with and `executeLoop_congr_fuel` for the loop equation. -/

namespace Sys2Proof.Machine

/-! ### the primitives -/

/-- Settles O13: the definitions of the three, and the value of a word put together from two bytes. -/
theorem fetchAndReadPrimitives : Obligations.FetchAndReadPrimitives := by
  intro s
  refine ⟨rfl, ?_, rfl, fun _ => rfl⟩
  show (wordOf (s.memRead (s.pc + 1)) (s.memRead s.pc)).toNat = _
  rw [wordOf_toNat]
  omega

/-- Settles O14: the two writes are at different addresses, so each byte is read back by the law of a read after a
write. -/
theorem writeWordIsLittleEndian : Obligations.WriteWordIsLittleEndian := by
  intro s a w
  refine ⟨fun notTop => ⟨_, writeWord_below_top a w s notTop, ?_, ?_, fun b notLow notHigh => ?_, rfl⟩, ?_⟩
  · have apart : a ≠ a + 1 := by bv_omega
    rw [memRead_charge, memRead_memWrite, if_neg apart, memRead_memWrite, if_pos rfl, lowByte_toNat]
  · rw [memRead_charge, memRead_memWrite, if_pos rfl, highByte_toNat]
  · rw [memRead_charge, memRead_memWrite, if_neg notHigh, memRead_memWrite, if_neg notLow]
  · rintro rfl
    exact writeWord_top w s

/-! ### ModifySP (R64) -/

theorem modifySp_below {sp : Word} (below : sp.toNat < 0x0100) : modifySp sp = 0x01FF := if_pos below

theorem modifySp_above {sp : Word} (above : 0x01FF < sp.toNat) : modifySp sp = 0x0100 := by
  rw [modifySp, if_neg (by omega), if_pos above]

theorem modifySp_of_inPage {sp : Word} (low : 0x0100 ≤ sp.toNat) (high : sp.toNat ≤ 0x01FF) : modifySp sp = sp := by
  rw [modifySp, if_neg (by omega), if_neg (by omega)]

/-- Settles O15: the pointer that each of the four stack instructions leaves is in its inversion lemma. -/
theorem modifySpResetsToOppositeEnd : Obligations.ModifySpResetsToOppositeEnd := by
  refine ⟨fun _ => ⟨modifySp_below, modifySp_above, modifySp_of_inPage⟩, fun s t => ⟨?_, ?_, ?_, ?_⟩⟩
  · intro h
    obtain ⟨-, rfl⟩ := execPha_next s t h
    rfl
  · intro h
    obtain ⟨-, rfl⟩ := execPla_next s t h
    rfl
  · intro h
    obtain ⟨-, rfl⟩ := execRts_next s t h
    rfl
  · intro target h
    obtain ⟨-, rfl⟩ := execJsr_next target s t h
    rfl

/-! ### the instruction at the program counter -/

/-- Settles O8: three bytes always decode, to the instruction the step runs. -/
theorem stepRunsDecodedInstruction : Obligations.StepRunsDecodedInstruction := by
  intro s i rest decodes
  rw [decode, decodeWith_three] at decodes
  cases decodes
  exact ⟨wfWith_assembleWith params _ _ _, rfl⟩

/-- One fetch after another is a fetch of the bytes of both (R60, R61). -/
theorem fetched_fetched (m n : Nat) (s : State) : (s.fetched m).fetched n = s.fetched (m + n) := by
  simp only [State.fetched, BitVec.ofNat_add, BitVec.add_assoc, Nat.cast_add, Int.sub_sub]

/-- An instruction at the program counter is as long as its opcode byte says (R53). -/
theorem length_instrAt (s : State) : (instrAt s).length = 1 + operandBytesWith params (s.memRead s.pc) := by
  rw [Instr.length, instrAt, assembleWith_operandBytes]

section
variable {s : State}

/-- The fetch of an opcode with no operand byte. -/
theorem fetchInstr_of_noOperand (noOperand : operandBytesWith params (s.memRead s.pc) = 0) :
    fetchInstr s = (assembleWith params (s.memRead s.pc) 0 0, s.fetched 1) := by
  simp only [fetchInstr, fetchByte, noOperand]

/-- The fetch of an opcode with one operand byte. -/
theorem fetchInstr_of_oneOperand (one : operandBytesWith params (s.memRead s.pc) = 1) :
    fetchInstr s = (assembleWith params (s.memRead s.pc) (s.memRead (s.pc + 1)) 0, (s.fetched 1).fetched 1) := by
  simp only [fetchInstr, fetchByte, one]
  rfl

/-- The fetch of an opcode with two operand bytes: the word's bytes are the two after the opcode. -/
theorem fetchInstr_of_twoOperands (two : operandBytesWith params (s.memRead s.pc) = 2) :
    fetchInstr s = (instrAt s, (s.fetched 1).fetched 2) := by
  have second : s.pc + BitVec.ofNat 16 1 + 1 = s.pc + 2 := BitVec.add_assoc s.pc 1 1
  simp only [fetchInstr, fetchByte, two, fetchWord, lowByte_wordOf, highByte_wordOf, fetched_pc, memRead_fetched,
    second]
  rfl

end

/-- Settles O9, by the number of operand bytes: those fetched are the ones `instrAt` looks at, and those not fetched
have no influence. -/
theorem fetchSequenceReadsInstruction : Obligations.FetchSequenceReadsInstruction := by
  intro s
  have atMostTwo := operandBytesWith_le_two params (s.memRead s.pc)
  rw [length_instrAt, ← fetched_fetched]
  obtain noOperand | one | two : operandBytesWith params (s.memRead s.pc) = 0 ∨
      operandBytesWith params (s.memRead s.pc) = 1 ∨ operandBytesWith params (s.memRead s.pc) = 2 := by omega
  · rw [fetchInstr_of_noOperand noOperand, noOperand, fetched_fetched]
    exact congrArg (·, s.fetched 1) (assembleWith_congr params _ (by omega) (by omega))
  · rw [fetchInstr_of_oneOperand one, one]
    exact congrArg (·, (s.fetched 1).fetched 1) (assembleWith_congr params _ (fun _ => rfl) (by omega))
  · rw [fetchInstr_of_twoOperands two, two]

/-! ### what a step takes from the budget (70_reset_and_hazards.md R160) -/

/-- A branch's row of the cost table is the one of its condition. -/
theorem cycleCost_of_mem_branchRows {i : Instr} {taken : Bool} {off : Byte} {s : State}
    (row : (i, taken) ∈ branchRows off s.flags) : cycleCost i s = branchCost taken off s.pc := by
  simp only [branchRows, List.mem_cons, Prod.mk.injEq, List.not_mem_nil, or_false] at row
  rcases row with ⟨rfl, rfl⟩ | ⟨rfl, rfl⟩ | ⟨rfl, rfl⟩ | ⟨rfl, rfl⟩ | ⟨rfl, rfl⟩ | ⟨rfl, rfl⟩ | ⟨rfl, rfl⟩ |
    ⟨rfl, rfl⟩ <;>
    simp [cycleCost]

/-- A branch takes what R94 says, for either value of its condition. -/
theorem branchIf_cyc (taken : Bool) (off : Byte) (s : State) :
    (branchIf taken off s).cyc = s.cyc - branchCost taken off s.pc := by
  cases taken with
  | false => rfl
  | true =>
    rw [branchIf_true_cyc]
    simp only [branchCost, pageCrossed, bne_iff_ne, ne_eq, ite_not, Bool.not_true, Bool.false_eq_true, if_false]
    split_ifs <;> omega

/-- What an instruction takes from `cyc` is the total of its row. -/
theorem exec_cyc {i : Instr} {s t : State} (h : exec i s = .next t) : t.cyc = s.cyc - cycleCost i s := by
  cases exec_effect h with
  | branch off row =>
    rw [cycleCost_of_mem_branchRows row]
    exact branchIf_cyc _ off s
  | _ => simp only [cycleCost]; omega

theorem branchCost_bounds (taken : Bool) (off : Byte) (pc : Word) :
    1 ≤ branchCost taken off pc ∧ branchCost taken off pc ≤ 5 := by
  unfold branchCost
  split_ifs <;> decide

/-- The dearest rows cost five cycles, and none is free. -/
theorem cycleCost_bounds (i : Instr) (s : State) : 1 ≤ cycleCost i s ∧ cycleCost i s ≤ 5 := by
  cases i with
  | bcc off | bcs off | beq off | bne off | bmi off | bpl off | bvc off | bvs off => exact branchCost_bounds _ off s.pc
  | _ => simp [cycleCost]

/-- The pointer's page is kept whatever memory holds: every pointer a row of the table writes comes from ModifySP. -/
theorem exec_keeps_spInPage {i : Instr} {s t : State} (page : s.SpInPage) (h : exec i s = .next t) : t.SpInPage := by
  cases exec_effect h with
  | pha => exact pushAddress_inPage _
  | pla | rts => exact pulledSp_inPage _
  | jsr => exact modifySp_inPage _
  | _ => exact page

/-- A step from a pointer in its page goes on with less budget, by at most five cycles (R74, R75). -/
theorem step_goes_on {s : State} (page : s.SpInPage) :
    ∃ t : State, step s = .next t ∧ t.SpInPage ∧ s.cyc - 5 ≤ t.cyc ∧ t.cyc < s.cyc := by
  obtain ⟨t, ht⟩ := exec_goes_on (instrAt s) s page
  have cost := exec_cyc ht
  obtain ⟨atLeastOne, atMostFive⟩ := cycleCost_bounds (instrAt s) s
  exact ⟨t, ht, exec_keeps_spInPage page ht, by omega, by omega⟩

/-! ### Execute -/

/-- With enough fuel the loop ends with the budget used up, by at most four cycles too many: the last step began with at
least one cycle left and took at most five. -/
theorem executeLoop_ends {fuel : Nat} {s : State} (page : s.SpInPage) (low : -4 ≤ s.cyc) (enough : s.cyc ≤ fuel) :
    ∃ t : State, executeLoop fuel s = .next t ∧ t.SpInPage ∧ -4 ≤ t.cyc ∧ t.cyc ≤ 0 := by
  induction fuel generalizing s with
  | zero => exact ⟨s, rfl, page, low, enough⟩
  | succ fuel ih =>
    rcases le_or_gt s.cyc 0 with idle | busy
    · exact ⟨s, executeLoop_idle _ s idle, page, low, idle⟩
    · obtain ⟨u, hu, pageU, lowU, less⟩ := step_goes_on page
      rw [executeLoop_turn fuel s busy, hu]
      exact ih pageU (by omega) (by omega)

/-- Settles O52: `execute` gives the loop as much fuel as budget, and with no budget the loop has no turn. -/
theorem executeReturnsWithBoundedOverrun : Obligations.ExecuteReturnsWithBoundedOverrun := by
  intro budget s page
  constructor
  · intro positive
    refine executeLoop_ends (s := { s with cyc := budget }) page ?_ (Int.self_le_toNat budget)
    show -4 ≤ budget
    omega
  · intro spent
    exact executeLoop_idle _ { s with cyc := budget } spent

/-- Fuel beyond the budget changes nothing: a turn takes one from the fuel and at least one from the budget. -/
theorem executeLoop_congr_fuel {fuel fuel' : Nat} {s : State} (page : s.SpInPage) (enough : s.cyc ≤ fuel)
    (enough' : s.cyc ≤ fuel') : executeLoop fuel s = executeLoop fuel' s := by
  induction fuel generalizing fuel' s with
  | zero => rw [executeLoop_idle _ s enough, executeLoop_idle _ s enough]
  | succ fuel ih =>
    rcases le_or_gt s.cyc 0 with idle | busy
    · rw [executeLoop_idle _ s idle, executeLoop_idle _ s idle]
    · obtain ⟨n, rfl⟩ : ∃ n, fuel' = n + 1 := Nat.exists_eq_add_one.mpr (by omega)
      obtain ⟨t, ht, pageT, -, less⟩ := step_goes_on page
      rw [executeLoop_turn fuel s busy, executeLoop_turn n s busy, ht]
      exact ih pageT (by omega) (by omega)

/-- Settles O53: after the first turn both sides are the loop at the same state, each with fuel enough. -/
theorem executeUnfoldsAsLoop : Obligations.ExecuteUnfoldsAsLoop := by
  intro budget s page busy
  obtain ⟨t, ht, pageT, -, less⟩ := step_goes_on (s := { s with cyc := budget }) page
  refine ⟨t, ht, ?_⟩
  obtain ⟨n, hn⟩ : ∃ n, budget.toNat = n + 1 := Nat.exists_eq_add_one.mpr (by omega)
  change t.cyc < budget at less
  calc execute budget s
      = executeLoop (n + 1) { s with cyc := budget } := by rw [execute, hn]
    _ = andThen (step { s with cyc := budget }) (executeLoop n) := executeLoop_turn n _ busy
    _ = executeLoop n t := by rw [ht]; rfl
    _ = execute t.cyc t := executeLoop_congr_fuel pageT (by omega) (Int.self_le_toNat t.cyc)

/-! ### a list of commands -/

/-- Commands are carried out whole when the first is and the rest are from the block it leaves. -/
theorem commands_cons_of_next {c : Command} {rest : List Command} {b mid last : Block} {first : Option Byte}
    {more : List Byte} (served : Block.command c b = .next (mid, first))
    (rests : Block.commands rest mid = .next (last, more)) :
    Block.commands (c :: rest) b = .next (last, first.toList ++ more) := by
  simp only [Block.commands, served, rests]

/-- From a ready block with the invariant any list of commands in range is carried out, by induction on the list. -/
theorem commands_ready_served {cs : List Command} {s : State} (inv : s.Inv) (inRange : ∀ c ∈ cs, c.InRange) :
    ∃ (t : State) (out : List Byte), Block.commands cs (.ready s) = .next (.ready t, out) := by
  induction cs generalizing s with
  | nil => exact ⟨s, [], rfl⟩
  | cons c rest ih =>
    obtain ⟨inRangeC, inRangeRest⟩ := List.forall_mem_cons.mp inRange
    obtain ⟨mid, first, served, invMid, -, -⟩ := commandIsServedAndKeepsFacts c s inv inRangeC
    obtain ⟨t, more, rests⟩ := ih invMid inRangeRest
    exact ⟨t, _, commands_cons_of_next served rests⟩

/-- Settles O55: Reset gives the reset state, which has the invariant. -/
theorem commandsAfterResetNeverFail : Obligations.CommandsAfterResetNeverFail := by
  intro cs inRange
  obtain ⟨t, out, rests⟩ := commands_ready_served resetMeetsInvariant.1 inRange
  exact ⟨t, _, commands_cons_of_next rfl rests⟩

end Sys2Proof.Machine

/-! # Loads (41_load.md)

The three forms differ in the byte and in the cost only: `State.loaded` is what they have in common, and one equation
per form says which byte and which cost. -/

namespace Sys2Proof.Machine

/-- The state after a load of `v` that costs `cost` cycles (R80): `A`, `Z` and `N` from the byte, `pc` two on. -/
def State.loaded (v : Byte) (cost : Nat) (s : State) : State :=
  { s with
    a := v
    flags := { s.flags with z := decide (v = 0), n := decide (128 ≤ v.toNat) }
    pc := s.pc + 2
    cyc := s.cyc - cost }

/-- The end of every load, from the fetch of its two bytes. -/
theorem loadA_fetched (v : Byte) (s : State) : loadA v (s.fetched 2) = s.loaded v 2 := by
  simp only [loadA, State.loaded, fetched_flags, setZN_eq]
  rfl

/-- A further charge only adds to the cost (R68). -/
theorem charge_loaded (v : Byte) (cost extra : Nat) (s : State) :
    (s.loaded v cost).charge extra = s.loaded v (cost + extra) := by
  simp only [State.charge, State.loaded, Int.sub_sub, Nat.cast_add]

theorem exec_ldaImm (imm : Byte) (s : State) : exec (.ldaImm imm) s = .next (s.loaded imm 2) :=
  congrArg Host.Outcome.next (loadA_fetched imm s)

theorem exec_ldaZp (zp : Byte) (s : State) :
    exec (.ldaZp zp) s = .next (s.loaded (s.memRead (zpAddress zp)) 3) :=
  calc exec (.ldaZp zp) s
      = .next ((loadA (s.memRead (zpAddress zp)) (s.fetched 2)).charge 1) := rfl
    _ = .next (s.loaded (s.memRead (zpAddress zp)) 3) := by rw [loadA_fetched, charge_loaded]

/-- The index computation and the read are charged one cycle each, for either value of `ZPX_WRAP` (R83). -/
theorem execLdaZpXWith_eq (p : Params) (zp : Byte) (s : State) :
    execLdaZpXWith p zp s = .next (s.loaded (s.memRead (zpxAddressWith p zp s.x)) 4) :=
  calc execLdaZpXWith p zp s
      = .next (((loadA (s.memRead (zpxAddressWith p zp s.x)) (s.fetched 2)).charge 1).charge 1) := rfl
    _ = .next (s.loaded (s.memRead (zpxAddressWith p zp s.x)) 4) := by
      rw [loadA_fetched, charge_loaded, charge_loaded]

theorem exec_ldaZpX (zp : Byte) (s : State) :
    exec (.ldaZpX zp) s = .next (s.loaded (s.memRead (zpxAddressWith params zp s.x)) 4) :=
  execLdaZpXWith_eq params zp s

/-- Below the end of the zero page both readings of `ZPX_WRAP` give the sum itself. -/
theorem zpxAddressWith_of_sum_lt (p : Params) {zp x : Byte} (inPage : zp.toNat + x.toNat < 256) :
    zpxAddressWith p zp x = BitVec.ofNat 16 (zp.toNat + x.toNat) := by
  cases wrap : p.zpxWrap with
  | true => rw [zpxAddressWith_wrapped p wrap, Nat.mod_eq_of_lt inPage]
  | false => exact zpxAddressWith_unwrapped p wrap zp x

/-- Settles O16, by the equation of LDA #; two bytes are enough for 0xA9. -/
theorem loadImmediateResult : Obligations.LoadImmediateResult := by
  intro imm s
  refine ⟨rfl, s.loaded imm 2, exec_ldaImm imm s, rfl, fun noWrap => ?_⟩
  show (s.pc + 2).toNat = s.pc.toNat + 2
  bv_omega

/-- Settles O17: each form leaves `State.loaded` of its byte, and the two zero-page forms cost 3 and 4. -/
theorem loadsWriteOnlyAccumulatorZeroNegative : Obligations.LoadsWriteOnlyAccumulatorZeroNegative := by
  intro s
  refine ⟨fun imm => ⟨_, exec_ldaImm imm s, rfl⟩, fun zp => ?_, fun zp => ?_, fun zp t u ht hu => ?_⟩
  · rw [← zpAddress_eq]
    exact ⟨_, exec_ldaZp zp s, rfl⟩
  · exact ⟨_, ⟨_, exec_ldaZpX zp s, rfl⟩, fun inPage => by rw [zpxAddressWith_of_sum_lt params inPage]⟩
  · rw [exec_cyc ht, exec_cyc hu]
    simp only [cycleCost]
    omega

/-- Settles O18, by the equations of the two forms and the address under each value of `ZPX_WRAP`. -/
theorem zeroPageXAddressBothReadings : Obligations.ZeroPageXAddressBothReadings := by
  intro zp s
  have wrapped (p : Params) (wrap : p.zpxWrap = true) : execLdaZpXWith p zp s =
      .next (s.loaded (s.memRead (BitVec.ofNat 16 ((zp.toNat + s.x.toNat) % 256))) 4) := by
    rw [execLdaZpXWith_eq, zpxAddressWith_wrapped p wrap]
  refine ⟨?_, wrapped params rfl, rfl, wrapped, fun p noWrap => ?_⟩
  · rw [exec_ldaZp, zpAddress_eq]
    rfl
  · rw [execLdaZpXWith_eq, zpxAddressWith_unwrapped p noWrap]
    rfl

end Sys2Proof.Machine

/-! # Arithmetic and logic (42_alu.md)

ADC's and CMP's flags on integers, ADC's overflow test as a fact about three sign bits, and for every instruction that
writes `Z` and `N` the byte they follow. -/

namespace Sys2Proof.Machine

/-! ### flags on integers -/

/-- The test of a byte for zero, on its value. -/
theorem beq_zero_eq (v : Byte) : (v == 0) = decide (v.toNat = 0) :=
  decide_eq_decide.mpr BitVec.toNat_inj.symm

/-- ADC's carry, zero and negative flags, from the sum (R86); the overflow test is left as the source writes it. -/
theorem adc_eq (f : Flags) (a imm : Byte) :
    f.adc a imm = { f with
      c := decide (255 < a.toNat + imm.toNat + f.c.toNat)
      z := decide ((a.toNat + imm.toNat + f.c.toNat) % 256 = 0)
      n := decide (128 ≤ (a.toNat + imm.toNat + f.c.toNat) % 256)
      v := decide ((~~~(a ^^^ imm) &&& (a ^^^ adcResult a imm f.c) &&& 0x80) ≠ 0) } := by
  rw [← adcResult_toNat, ← beq_zero_eq, ← bit7_eq, decide_not]
  rfl

/-- CMP's flags, from the values of the two bytes (R88). -/
theorem cmp_eq (f : Flags) (a imm : Byte) :
    f.cmp a imm = { f with
      c := decide (imm.toNat ≤ a.toNat)
      z := decide (a.toNat = imm.toNat)
      n := decide (128 ≤ (a.toNat + (256 - imm.toNat)) % 256) } := by
  have difference : (a - imm).toNat = (a.toNat + (256 - imm.toNat)) % 256 := by
    rw [BitVec.toNat_sub, Nat.add_comm]
  rw [← difference, ← bit7_eq, decide_eq_decide.mpr BitVec.toNat_inj]
  rfl

/-! ### the overflow test -/

/-- The mask 0x80 picks out bit 7. -/
theorem and_0x80_bne_zero (v : Byte) : ((v &&& 0x80) != 0) = bit7 v := by
  revert v; decide

/-- The overflow test on sign bits: the operands have one sign and the result has the other (R86). -/
theorem adc_v_eq_signs (f : Flags) (a imm : Byte) :
    (f.adc a imm).v = (bit7 a == bit7 imm && bit7 a != bit7 (adcResult a imm f.c)) := by
  rw [adc_v, and_0x80_bne_zero]
  simp [bit7, bne]

/-- A byte as a signed number, from its unsigned value (00_scope.md R6). -/
theorem toInt_eq_ite (v : Byte) : v.toInt = if 128 ≤ v.toNat then (v.toNat : Int) - 256 else v.toNat := by
  rw [BitVec.toInt_eq_toNat_cond]
  split_ifs <;> omega

/-- The overflow test is the range test of the signed sum. Operands of two signs have a sum in range; operands of one
sign have one exactly when the result keeps that sign. -/
theorem adc_v_iff (f : Flags) (a imm : Byte) :
    (f.adc a imm).v = true ↔
      ¬ (-128 ≤ a.toInt + imm.toInt + f.c.toNat ∧ a.toInt + imm.toInt + f.c.toNat ≤ 127) := by
  have carry := f.c.toNat_le
  have boundA := a.isLt
  have boundImm := imm.isLt
  simp only [adc_v_eq_signs, Bool.and_eq_true, beq_iff_eq, bne_iff_ne, bit7_eq, ne_eq, decide_eq_decide,
    adcResult_toNat, toInt_eq_ite]
  by_cases oneSign : 128 ≤ a.toNat ↔ 128 ≤ imm.toNat
  · simp only [oneSign, true_and]
    split_ifs <;> omega
  · simp only [oneSign, false_and, false_iff, not_not]
    split_ifs <;> omega

/-! ### the four obligations on ADC, AND and CMP -/

/-- Settles O19, by ADC's flags on integers; neither they nor the result mention `D`. -/
theorem adcResultAndFlags : Obligations.AdcResultAndFlags := fun imm s =>
  ⟨_, rfl, adcResult_toNat s.a imm s.flags.c, adc_eq s.flags s.a imm, rfl⟩

/-- Settles O20: the flags are those of ADC, whose overflow test is the range test. -/
theorem adcOverflowMeansSignedOverflow : Obligations.AdcOverflowMeansSignedOverflow := by
  intro imm s t h
  cases h
  exact adc_v_iff s.flags s.a imm

/-- Settles O21, by the bits of a conjunction of bytes and SetZN. -/
theorem andResultAndFlags : Obligations.AndResultAndFlags := fun _ _ =>
  ⟨_, rfl, fun _ => BitVec.getLsbD_and, rfl, rfl⟩

/-- Settles O22, by CMP's flags on integers. -/
theorem compareFlags : Obligations.CompareFlags := by
  intro imm s
  rw [← cmp_eq]
  rfl

/-! ### zero and negative follow the computed byte -/

/-- A compare finds the bytes equal exactly when their difference is zero (R88). -/
theorem cmp_z_eq (f : Flags) (a imm : Byte) : (f.cmp a imm).z = decide (a - imm = 0) :=
  decide_eq_decide.mpr sub_eq_zero.symm

/-- SetZN after a byte is changed in place follows the byte that is then in memory (R111, R112). -/
theorem modifyByte_flags_follow (f : Byte → Byte) (ea : Word) (s : State) :
    (modifyByte f ea s).flags = s.flags.setZN ((modifyByte f ea s).memRead ea) := by
  rw [memRead_modifyByte, if_pos rfl, modifyByte_flags]

/-- After SetZN the two flags follow its byte (R91). -/
theorem follows_of_flags_eq_setZN {t : State} {f : Flags} {v : Byte} (h : t.flags = f.setZN v) :
    t.flags.z = decide (v = 0) ∧ t.flags.n = v.getLsbD 7 := by
  rw [h]
  exact ⟨rfl, rfl⟩

/-- Settles O23: the loads and AND end in SetZN of `A`, DEC and INC in SetZN of the byte written, and ADC and CMP
compute the same two flags themselves. -/
theorem zeroAndNegativeFollowResult : Obligations.ZeroAndNegativeFollowResult := by
  intro s t
  refine ⟨fun b h => ?ldaImm, fun b h => ?ldaZp, fun b h => ?ldaZpX, fun b h => ?adc, fun b h => ?and,
    fun b h => ?cmp, fun b h => ?decZp, fun b h => ?inc⟩ <;> cases h
  case ldaImm | ldaZp | ldaZpX | and => exact follows_of_flags_eq_setZN (f := s.flags) rfl
  case adc => exact ⟨rfl, rfl⟩
  case cmp => exact ⟨cmp_z_eq s.flags s.a b, rfl⟩
  case decZp => exact follows_of_flags_eq_setZN (modifyByte_flags_follow (· - 1) (zpAddress b) (s.fetched 2))
  case inc =>
    exact follows_of_flags_eq_setZN (modifyByte_flags_follow (· + 1) (incAddress (s.pc + 2)) (s.fetched 2))

end Sys2Proof.Machine

/-! # Branches (43_branch.md R93 to R102)

`exec_of_mem_branchRows` says for all eight that a branch is `branchIf` of its row's condition: the two obligations are
facts about `branchIf`, with its target and the pages of R94 on integers. -/

namespace Sys2Proof.Machine

/-! ### one flag read, none written -/

/-- Once its condition is given, a branch reads no flag. -/
theorem branchIf_with_flags (cond : Bool) (off : Byte) (s : State) (f : Flags) :
    branchIf cond off { s with flags := f } = { branchIf cond off s with flags := f } := by
  cases cond <;> rfl

/-- The base two cycles are the cost of a branch that is not taken, and of no other (R94). -/
theorem branchCost_eq_two_iff (taken : Bool) (off : Byte) (pc : Word) :
    branchCost taken off pc = 2 ↔ taken = false := by
  cases taken with
  | false => exact iff_of_true rfl rfl
  | true =>
    refine iff_of_false ?_ Bool.true_eq_false.mp
    show (if _ then 3 else 4) ≠ 2
    split_ifs <;> decide

/-- Settles O24: both runs are `branchIf` of the one condition, which is all that a branch takes from the flags. -/
theorem branchReadsOneFlagWritesNone : Obligations.BranchReadsOneFlagWritesNone := by
  rintro off s f ⟨i, taken⟩ row rowWithF
  refine ⟨branchIf taken off s, exec_of_mem_branchRows row, ?_, branchIf_flags taken off s, ?_⟩
  · rw [exec_of_mem_branchRows (s := { s with flags := f }) rowWithF, branchIf_with_flags]
  · rw [branchIf_cyc, ← branchCost_eq_two_iff taken off s.pc]
    omega

/-! ### target and cost on integers -/

/-- The target is the sum of the next instruction's address and the signed offset, modulo 65536 (R94, D14). -/
theorem branchTarget_toNat (next : Word) (off : Byte) :
    ((branchTarget next off).toNat : Int) = ((next.toNat : Int) + off.toInt) % 65536 := by
  rw [branchTarget, sext16, BitVec.signExtend, BitVec.toNat_add, BitVec.toNat_ofInt]
  omega

/-- The cost of a taken branch, with the pages of R94 on integers. -/
theorem branchCost_true (off : Byte) (pc : Word) :
    branchCost true off pc =
      if (branchTarget (pc + 2) off).toNat / 256 = (pc.toNat + 2) % 65536 / 256 then 3 else 4 := by
  show (if highByte (branchTarget (pc + 2) off) = highByte (pc + 2) then 3 else 4) = _
  simp only [highByte_eq_iff, BitVec.toNat_add]
  rfl

/-- Settles O25, for all eight at once by the two halves of `branchIf`. -/
theorem branchTargetAndCost : Obligations.BranchTargetAndCost := by
  rintro off s ⟨i, taken⟩ row
  constructor
  · rintro rfl
    exact exec_of_mem_branchRows row
  · rintro rfl
    refine ⟨branchIf true off s, exec_of_mem_branchRows row, ?_, ?_, branchIf_frame true off s⟩
    · rw [branchIf_true_pc, branchTarget_toNat]
      bv_omega
    · rw [branchIf_cyc, branchCost_true, branchIf_true_pc]
      split_ifs <;> rfl

end Sys2Proof.Machine

/-! # The flag clears and the no-operation (44_flag_clear_nop.md R104 to R108)

A flag clear is its row of `exec`. A NOP advances the counter twice, once in the fetch and once in the handler: the two
sums on words are one on integers. -/

namespace Sys2Proof.Machine

/-- Settles O27: each clear is the fetch of one byte and the write of its one flag, by the definitions. -/
theorem flagClearResults : Obligations.FlagClearResults := fun _ => ⟨rfl, rfl, rfl, rfl⟩

/-- The advance after a fetch is not charged, and adds to the fetch's own on integers (R108, D14). -/
theorem advance_fetched (n k : Nat) (s : State) :
    (s.fetched n).advance k = { s with pc := BitVec.ofNat 16 (s.pc.toNat + n + k), cyc := s.cyc - n } := by
  have sum : s.pc + BitVec.ofNat 16 n + BitVec.ofNat 16 k = BitVec.ofNat 16 (s.pc.toNat + n + k) := by
    rw [BitVec.ofNat_add, BitVec.ofNat_add, BitVec.ofNat_toNat, BitVec.setWidth_eq]
  rw [← sum]
  rfl

/-- NOP under every parameter record: one byte fetched, then the handler's advance. -/
theorem execNopWith_eq (p : Params) (s : State) :
    execNopWith p s = .next { s with pc := BitVec.ofNat 16 (s.pc.toNat + 1 + p.nopExtraPc), cyc := s.cyc - 1 } :=
  congrArg Host.Outcome.next (advance_fetched 1 p.nopExtraPc s)

/-- Settles O28: NOP is `execNopWith` at the defaults, where `NOP_EXTRA_PC` is 1. -/
theorem nopAdvancesOnly : Obligations.NopAdvancesOnly :=
  ⟨execNopWith_eq, fun s => ⟨rfl, execNopWith_eq params s⟩⟩

end Sys2Proof.Machine

/-! # Memory read-modify-write (45_memory_rmw.md R111, R112)

DEC and INC differ in the change of the byte and in its address only: `State.modified` is what they have in common, and
one equation per instruction says which change and which address. -/

namespace Sys2Proof.Machine

/-! ### one byte of memory changed by an instruction -/

/-- The state after a two-byte instruction that changes the byte at `ea` by `f`: the fetch of both bytes, the change in
place with its `Z` and `N`, and the charge of `COST_RMW` (D8). -/
def State.modified (f : Byte → Byte) (ea : Word) (s : State) : State :=
  (modifyByte f ea (s.fetched 2)).charge 3

section
variable (f : Byte → Byte) (ea : Word) (s : State)

theorem memRead_modified_same : (s.modified f ea).memRead ea = f (s.memRead ea) := by
  rw [State.modified, memRead_charge, memRead_modifyByte, if_pos rfl, memRead_fetched]

theorem memRead_modified_other {a : Word} (other : a ≠ ea) : (s.modified f ea).memRead a = s.memRead a := by
  rw [State.modified, memRead_charge, memRead_modifyByte, if_neg other, memRead_fetched]

/-- `Z` and `N` are from the byte that is then in memory, the other flags as they were (R91). -/
theorem modified_flags :
    (s.modified f ea).flags = { s.flags with
      z := decide ((s.modified f ea).memRead ea = 0)
      n := decide (128 ≤ ((s.modified f ea).memRead ea).toNat) } := by
  rw [memRead_modified_same, ← setZN_eq]
  rfl

/-- Memory, flags, `pc` and `cyc` are all that changes; the two fetches and the charge of 3 cost 5. -/
theorem modified_frame :
    s.modified f ea =
      { s with mem := (s.modified f ea).mem, flags := (s.modified f ea).flags, pc := s.pc + 2, cyc := s.cyc - 5 } := by
  have cost : s.cyc - 2 - 3 = s.cyc - 5 := Int.sub_sub ..
  rw [← cost]
  rfl

end

theorem exec_decZp (zp : Byte) (s : State) : exec (.decZp zp) s = .next (s.modified (· - 1) (zpAddress zp)) := rfl

/-- INC changes the byte right after its opcode, whatever operand was decoded (D6). -/
theorem exec_inc (operand : Byte) (s : State) : exec (.inc operand) s = .next (s.modified (· + 1) (s.pc + 1)) := by
  rw [← incAddress_next]
  rfl

/-! ### the two obligations on one run of DEC and INC -/

/-- A zero-page address is its operand byte on integers (R52). -/
theorem zpAddress_toNat (zp : Byte) : (zpAddress zp).toNat = zp.toNat :=
  BitVec.toNat_setWidth_of_le (by decide)

/-- Settles O29: DEC is `State.modified` by one down, which modulo 256 is 255 up. -/
theorem decrementZeroPage : Obligations.DecrementZeroPage := by
  intro zp s
  refine ⟨_, exec_decZp zp s, zpAddress_toNat zp, ?_, fun a => memRead_modified_other _ _ s, modified_flags _ _ s,
    modified_frame _ _ s⟩
  rw [memRead_modified_same, BitVec.toNat_sub, Nat.add_comm]
  rfl

/-- Settles O30: INC is `State.modified` by one up, at the address right after the opcode. -/
theorem incrementOwnOperandByte : Obligations.IncrementOwnOperandByte := by
  intro operand s
  rw [incAddress_next]
  refine ⟨_, exec_inc operand s, rfl, ?_, fun a => memRead_modified_other _ _ s, modified_flags _ _ s,
    modified_frame _ _ s⟩
  rw [memRead_modified_same, BitVec.toNat_add]
  rfl

/-! ### the instruction that INC leaves in its place -/

/-- Bytes that stand for an INC are its opcode and then its operand (R50, R73). -/
theorem assembleWith_eq_inc {p : Params} {op b1 b2 operand : Byte} (isInc : assembleWith p op b1 b2 = .inc operand) :
    p.opc.lookup op = some .inc ∧ b1 = operand := by
  cases found : p.opc.lookup op with
  | none =>
    rw [assembleWith_of_lookup_none found] at isInc
    cases isInc
  | some h =>
    rw [assembleWith_of_lookup found] at isInc
    have handler := h.handler_instr b1 b2
    rw [isInc] at handler
    cases handler
    cases isInc
    exact ⟨rfl, rfl⟩

/-- Settles O31: the step leaves the opcode byte, so that any state which reads its memory from the old `pc` finds an INC
again, and the byte after it is the old operand plus one (R43). -/
theorem incrementChangesItsOwnCode : Obligations.IncrementChangesItsOwnCode := by
  intro operand s isInc
  obtain ⟨opcode, rfl⟩ := assembleWith_eq_inc isInc
  refine ⟨s.modified (· + 1) (s.pc + 1), by rw [step_eq, isInc, exec_inc], fun u samePc sameMem => ?_⟩
  have read (a : Word) : u.memRead a = (s.modified (· + 1) (s.pc + 1)).memRead a := by
    rw [State.memRead, sameMem, State.memRead]
  have notOperand : s.pc ≠ s.pc + 1 := by bv_omega
  rw [instrAt, samePc, read s.pc, read (s.pc + 1), memRead_modified_other _ _ s notOperand, memRead_modified_same,
    assembleWith_of_lookup opcode]
  rfl

end Sys2Proof.Machine

/-! # Push and pull accumulator (46_stack.md R115, R116)

PHA and PLA are each one equation for a pointer in its page: their handlers step over the byte after the opcode by a
second advance of `pc` and charge `COST_PUSH_PULL` after the opcode's own cycle. -/

namespace Sys2Proof.Machine

/-! ### the primitives and the two counters -/

/-- A push stores its byte where the pointer then stands, and no other byte (R65). -/
theorem memRead_push (v : Byte) (s : State) (a : Word) :
    (push v s).memRead a = if a = pushAddress s.sp then v else s.memRead a :=
  memRead_memWrite { s with sp := pushAddress s.sp } (pushAddress s.sp) a v

/-- Where a pull leaves a pointer that is in the page, as a number (R64, R66). -/
theorem pulledSp_eq_ofNat {w : Word} (page : 0x0100 ≤ w.toNat ∧ w.toNat ≤ 0x01FF) :
    pulledSp w = BitVec.ofNat 16 (if w.toNat = 0x01FF then 0x0100 else w.toNat + 1) := by
  rw [← pulledSp_toNat w page, BitVec.ofNat_toNat, BitVec.setWidth_eq]

/-- The opcode fetch and the handler's advance of one are two bytes (R115, R116, D14). -/
theorem pc_add_one_add_one (pc : Word) : pc + 1 + 1 = pc + 2 := BitVec.add_assoc pc 1 1

/-- The opcode fetch and `COST_PUSH_PULL` are four cycles (D8). -/
theorem cyc_sub_one_sub_three (cyc : Int) : cyc - 1 - 3 = cyc - 4 := Int.sub_sub cyc 1 3

/-! ### PHA and PLA as one next state -/

theorem exec_pha {s : State} (page : s.SpInPage) :
    exec .pha s = .next { push s.a s with pc := s.pc + 2, cyc := s.cyc - 4 } := by
  rw [← pc_add_one_add_one, ← cyc_sub_one_sub_three]
  exact execPhaWith_inPage params s page

/-- PLA under every parameter record; `PLA_SETS_NZ` decides about the flags only. -/
theorem execPlaWith_eq (p : Params) {s : State} (page : s.SpInPage) :
    execPlaWith p s = .next { s with
      a := s.memRead s.sp
      flags := if p.plaSetsNZ then s.flags.setZN (s.memRead s.sp) else s.flags
      sp := pulledSp s.sp
      pc := s.pc + 2
      cyc := s.cyc - 1 - p.costPushPull } := by
  rw [execPlaWith_inPage p s page, ← pc_add_one_add_one]
  cases p.plaSetsNZ <;> rfl

/-- PLA at the defaults: no flag is written (D13) and the cost is 4 (D8). -/
theorem exec_pla {s : State} (page : s.SpInPage) :
    exec .pla s = .next
      { s with a := s.memRead s.sp, sp := pulledSp s.sp, pc := s.pc + 2, cyc := s.cyc - 4 } := by
  rw [← cyc_sub_one_sub_three]
  exact execPlaWith_eq params page

/-! ### the three obligations -/

/-- Settles O32, by PHA's equation and the law of a read after a push. -/
theorem pushAccumulatorResult : Obligations.PushAccumulatorResult := by
  intro s page
  refine ⟨_, exec_pha page, rfl, pushAddress_toNat s.sp page, ?_, fun a other => ?_, rfl⟩
  · exact (memRead_push s.a s _).trans (if_pos rfl)
  · exact (memRead_push s.a s a).trans (if_neg other)

/-- Settles O33: PLA's equation at the defaults, and the two values of `PLA_SETS_NZ` in the general one. -/
theorem pullAccumulatorResult : Obligations.PullAccumulatorResult := by
  intro s page
  rw [← pulledSp_eq_ofNat page]
  refine ⟨exec_pla page, rfl, fun p keepsNZ => ?_, fun p setsNZ => ?_⟩
  · rw [execPlaWith_eq p page, if_neg (by simp [keepsNZ])]
  · rw [execPlaWith_eq p page, if_pos setsNZ, setZN_eq]

/-- Settles O34: the pointer PHA leaves is in the page again, so the PLA goes on, finds the pushed byte there (O32) and
leaves the pointer one pull above the push. -/
theorem pushThenPullRestores : Obligations.PushThenPullRestores := by
  intro s page
  obtain ⟨t, pushed, spPushed, -, stored, -, -⟩ := pushAccumulatorResult s page
  refine ⟨t, pushed, fun u sameSp sameByte => ?_⟩
  have spU : u.sp = pushAddress s.sp := sameSp.trans spPushed
  have pageU : u.SpInPage := by
    rw [State.SpInPage, spU]
    exact pushAddress_inPage s.sp
  refine ⟨_, exec_pla pageU, ?_, ?_⟩
  · show u.memRead u.sp = s.a
    rw [sameByte, spPushed, stored]
  · show pulledSp u.sp = s.sp
    rw [spU, pulledSp_pushAddress s.sp page]

end Sys2Proof.Machine

/-! # Jump, subroutine call and return (47_jump_subroutine.md R119 to R123)

JSR and RTS are each one equation for a pointer in its page, as are PHA and PLA above. A call and its return are inverse
because, away from the ends of the page, JSR moves the pointer two down and RTS two up, with no wrap. -/

namespace Sys2Proof.Machine

/-! ### the pointer where nothing wraps -/

/-- A pull below the top of the page moves the pointer one up (R66). -/
theorem pulledSp_below_top {w : Word} (low : 0x0100 ≤ w.toNat) (high : w.toNat < 0x01FF) : pulledSp w = w + 1 :=
  modifySp_of_inPage (by bv_omega) (by bv_omega)

/-- A pull from where JSR stored, when that is in the page, moves the pointer to the return word's second byte. -/
theorem pulledSp_jsrAddress {w : Word} (low : 0x0102 ≤ w.toNat) (high : w.toNat ≤ 0x01FF) :
    pulledSp (jsrAddress w) = jsrAddress w + 1 := by
  have stored := jsrAddress_toNat w ⟨by omega, high⟩
  exact pulledSp_below_top (by omega) (by omega)

/-- Two pulls from there give back the pointer from before the JSR (R122). -/
theorem pulledSp_pulledSp_jsrAddress {w : Word} (low : 0x0102 ≤ w.toNat) (high : w.toNat ≤ 0x01FF) :
    pulledSp (pulledSp (jsrAddress w)) = w := by
  have stored := jsrAddress_toNat w ⟨by omega, high⟩
  rw [pulledSp_jsrAddress low high, pulledSp_below_top (by bv_omega) (by bv_omega)]
  bv_omega

/-! ### JSR, JMP and RTS as one next state -/

/-- The return word is the address of the last byte of the JSR (C1). -/
theorem jsrReturnWord_fetched (pc : Word) : jsrReturnWord (pc + 3) = pc + 2 := by
  unfold jsrReturnWord
  bv_omega

/-- The state after a JSR: the return word stored below the pointer, the pointer two down with one wrap, the target
in `pc`; the three fetches and WriteWord's charge cost 5 (D10). -/
def State.called (target : Word) (s : State) : State :=
  { (s.memWrite (jsrAddress s.sp) (lowByte (s.pc + 2))).memWrite (jsrAddress s.sp + 1) (highByte (s.pc + 2)) with
    sp := modifySp (s.sp - 2), pc := target, cyc := s.cyc - 5 }

/-- What each byte reads as after a call: the two that JSR stored, and every other as before. -/
theorem memRead_called (target : Word) (s : State) (a : Word) :
    (s.called target).memRead a =
      if a = jsrAddress s.sp + 1 then highByte (s.pc + 2)
      else if a = jsrAddress s.sp then lowByte (s.pc + 2)
      else s.memRead a := by
  rw [← memRead_memWrite s, ← memRead_memWrite]
  rfl

theorem memRead_called_high (target : Word) (s : State) :
    (s.called target).memRead (jsrAddress s.sp + 1) = highByte (s.pc + 2) :=
  (memRead_called target s _).trans (if_pos rfl)

theorem memRead_called_low (target : Word) (s : State) :
    (s.called target).memRead (jsrAddress s.sp) = lowByte (s.pc + 2) := by
  have distinct : jsrAddress s.sp ≠ jsrAddress s.sp + 1 := by bv_omega
  rw [memRead_called, if_neg distinct, if_pos rfl]

/-- A pointer that is in the page, and still is two below, moves with no wrap (R119's table). -/
theorem called_sp (target : Word) {s : State} (low : 0x0102 ≤ s.sp.toNat) (high : s.sp.toNat ≤ 0x01FF) :
    (s.called target).sp = jsrAddress s.sp := by
  have stored := jsrAddress_toNat s.sp ⟨by omega, high⟩
  exact modifySp_of_inPage (sp := jsrAddress s.sp) (by omega) (by omega)

theorem exec_jsr (target : Word) {s : State} (page : s.SpInPage) : exec (.jsr target) s = .next (s.called target) := by
  have cost : s.cyc - 3 - 2 - 0 = s.cyc - 5 := by omega
  rw [State.called, ← jsrReturnWord_fetched, ← cost]
  exact execJsrWith_inPage params target s page

theorem exec_rts {s : State} (page : s.SpInPage) :
    exec .rts s = .next { s with
      sp := pulledSp (pulledSp s.sp)
      pc := wordOf (s.memRead (pulledSp s.sp)) (s.memRead s.sp) + 1
      cyc := s.cyc - 4 } := by
  have cost : s.cyc - 1 - 2 - 1 = s.cyc - 4 := by omega
  rw [← cost]
  exact execRtsWith_inPage params s page

/-! ### the three instructions whole -/

/-- Settles O36: the three fetches and the charge of one cost 4. -/
theorem absoluteJumpResult : Obligations.AbsoluteJumpResult := by
  intro target s
  have cost : s.cyc - 3 - 1 = s.cyc - 4 := Int.sub_sub ..
  rw [← cost]
  rfl

/-- Settles O35, by JSR's equation and what the bytes read as after it. -/
theorem jumpToSubroutineResult : Obligations.JumpToSubroutineResult := by
  intro target s page
  refine ⟨s.called target, exec_jsr target page, jsrAddress_toNat s.sp page, ?_, ?_, fun a notLow notHigh => ?_,
    modifySp_sub_two s.sp page, rfl⟩
  · rw [memRead_called_low, lowByte_toNat]
  · rw [memRead_called_high, highByte_toNat]
  · rw [memRead_called, if_neg notHigh, if_neg notLow]

/-- Settles O37: RTS's equation, with the two pulled pointers as numbers. -/
theorem returnFromSubroutineResult : Obligations.ReturnFromSubroutineResult := by
  intro s page
  refine ⟨_, exec_rts page, ?_, rfl⟩
  rw [← pulledSp_toNat s.sp page]
  refine ⟨?_, pulledSp_toNat _ (pulledSp_inPage s.sp)⟩
  rw [BitVec.ofNat_toNat, BitVec.setWidth_eq, BitVec.toNat_add, wordOf_toNat, Nat.add_comm (_ * 256), Nat.mul_comm]
  rfl

/-! ### calls and returns -/

/-- Settles O38: where JSR left the pointer its return word stands (C1), so the RTS pulls that word, adds the one that
leads past the JSR, and moves the pointer back up. -/
theorem callThenReturnComesBack : Obligations.CallThenReturnComesBack := by
  intro target s low high
  have page : s.SpInPage := ⟨by omega, high⟩
  refine ⟨s.called target, exec_jsr target page, fun u sameSp sameLow sameHigh => ?_⟩
  have spU : u.sp = jsrAddress s.sp := sameSp.trans (called_sp target low high)
  have pageU : u.SpInPage := by
    rw [State.SpInPage, spU, jsrAddress_toNat s.sp page]
    omega
  rw [← sameSp, spU, memRead_called_low] at sameLow
  rw [← sameSp, spU, memRead_called_high] at sameHigh
  refine ⟨_, exec_rts pageU, ?_, ?_⟩
  · show wordOf (u.memRead (pulledSp u.sp)) (u.memRead u.sp) + 1 = s.pc + 3
    rw [spU, pulledSp_jsrAddress low high, sameLow, sameHigh, wordOf_high_low]
    exact BitVec.add_assoc s.pc 2 1
  · show pulledSp (pulledSp u.sp) = s.sp
    rw [spU, pulledSp_pulledSp_jsrAddress low high]

/-- A chain of calls that fits below the pointer takes two bytes for each, by induction on the chain (R123). -/
theorem callChain_descends {targets : List Word} {s : State} (high : s.sp.toNat ≤ 0x01FF)
    (room : 0x0100 + 2 * targets.length ≤ s.sp.toNat) :
    ∃ t : State, callChain targets s = .next t ∧ t.sp.toNat = s.sp.toNat - 2 * targets.length := by
  induction targets generalizing s with
  | nil => exact ⟨s, rfl, rfl⟩
  | cons target rest ih =>
    rw [List.length_cons] at room ⊢
    have page : s.SpInPage := ⟨by omega, high⟩
    have spCalled : (s.called target).sp.toNat = s.sp.toNat - 2 := by
      rw [called_sp target (by omega) high, jsrAddress_toNat s.sp page]
    obtain ⟨t, ran, spT⟩ := ih (s := s.called target) (by omega) (by omega)
    refine ⟨t, ?_, by omega⟩
    rw [callChain, exec_jsr target page]
    exact ran

/-- Settles O40: below 0x01FF there is room for 127 calls. -/
theorem nestedCallsDescendTheStack : Obligations.NestedCallsDescendTheStack := by
  intro targets s top few
  have spTop : s.sp.toNat = 0x01FF := congrArg BitVec.toNat top
  rw [← spTop]
  exact callChain_descends (by omega) (by omega)

end Sys2Proof.Machine

/-! # What stops, and what cycle counter and trace do (48_unimplemented.md, 60_exceptions.md, 70_reset_and_hazards.md)

An instruction goes on unless it uses the stack and its pointer is outside the page; what it then does depends on
neither `cyc` nor `diag`. -/

namespace Sys2Proof.Machine

/-! ### Reset and unimplemented opcodes -/

/-- Settles O1: a constructed block gets `State.reset`, a ready one the same but for `cyc`, and both have the memory
with no cell, in which every address is blank. -/
theorem resetLeavesTabledState : Obligations.ResetLeavesTabledState := by
  refine ⟨rfl, fun b => ?_⟩
  cases b with
  | constructed => exact ⟨State.reset, rfl, rfl, rfl, rfl, rfl, rfl, rfl, fun a => Memory.read_nil a.toNat, rfl⟩
  | ready s => exact ⟨resetCommand s, rfl, rfl, rfl, rfl, rfl, rfl, rfl, fun a => Memory.read_nil a.toNat, rfl⟩

/-- Settles O41: a byte with no row in the map decodes with no operand, and executing it is one fetched byte and the
report. -/
theorem unimplementedOpcodeReports : Obligations.UnimplementedOpcodeReports := by
  refine fun op s => ⟨fun rest free => decodeWith_of_lookup_none free rest, report op (s.fetched 1), rfl, rfl, ?_⟩
  intro noWrap
  exact (BitVec.toNat_add s.pc 1).trans (Nat.mod_eq_of_lt noWrap)

/-! ### what stops an instruction -/

/-- The instructions that assume the pointer in its page (U9). -/
def UsesStack (i : Instr) : Prop := i = .pha ∨ i = .pla ∨ i = .rts ∨ ∃ target : Word, i = .jsr target

/-- A stack instruction from a pointer outside the page is refused under that name. -/
theorem exec_stray {i : Instr} {s : State} (stray : ¬ s.SpInPage) (uses : UsesStack i) :
    exec i s = .refused .stackPointerOutsidePage := by
  rcases uses with rfl | rfl | rfl | ⟨target, rfl⟩
  · exact execPhaWith_outside params s stray
  · exact execPlaWith_outside params s stray
  · exact execRtsWith_outside params s stray
  · exact execJsrWith_outside params target s stray

/-- An instruction that does not use the stack goes on wherever the pointer is. -/
theorem exec_goes_on_of_not_usesStack {i : Instr} (s : State) (other : ¬ UsesStack i) :
    ∃ t : State, exec i s = .next t := by
  cases i with
  | pha | pla | jsr | rts => simp [UsesStack] at other
  | _ => exact ⟨_, rfl⟩

theorem exec_goes_on_or_stray (i : Instr) (s : State) :
    (∃ t : State, exec i s = .next t) ∨ ¬ s.SpInPage ∧ UsesStack i := by
  by_cases page : s.SpInPage
  · exact .inl (exec_goes_on i s page)
  · by_cases uses : UsesStack i
    · exact .inr ⟨page, uses⟩
    · exact .inl (exec_goes_on_of_not_usesStack s uses)

/-- Settles O42: an instruction goes on, or is a stack instruction with a stray pointer, which is refused by name. -/
theorem onlyAStrayStackPointerStops : Obligations.OnlyAStrayStackPointerStops := by
  refine fun i s => ⟨⟨(exec_goes_on_or_stray i s).resolve_left, ?_⟩, fun why refused => ?_⟩
  · rintro ⟨stray, uses⟩ ⟨t, ht⟩
    cases (exec_stray stray uses).symm.trans ht
  · rcases exec_goes_on_or_stray i s with ⟨t, ht⟩ | ⟨stray, uses⟩
    · cases ht.symm.trans refused
    · cases (exec_stray stray uses).symm.trans refused
      rfl

/-! ### the step and Execute(1) -/

/-- Settles O51. -/
theorem stepAlwaysGoesOn : Obligations.StepAlwaysGoesOn := by
  intro s page
  obtain ⟨t, ht, pageT, -, less⟩ := step_goes_on page
  exact ⟨t, ht, pageT, less⟩

/-- Settles O54: a budget of 1 gives the loop one turn, which is the step and then a loop with no fuel left. -/
theorem executeOneIsOneStep : Obligations.ExecuteOneIsOneStep := by
  intro s page
  obtain ⟨t, ht, -⟩ := step_goes_on (s := { s with cyc := 1 }) page
  calc execute 1 s
      = andThen (step { s with cyc := 1 }) (executeLoop 0) := executeLoop_turn 0 _ Int.one_pos
    _ = .next t := by rw [ht]; rfl
    _ = step { s with cyc := 1 } := ht.symm

/-! ### cycle costs, and independence from the counter and the trace -/

/-- Settles O47. -/
theorem cycleCostsAreTabled : Obligations.CycleCostsAreTabled :=
  fun i s _ h => ⟨exec_cyc h, cycleCost_bounds i s⟩

/-- What an instruction appends to the trace (R124). -/
def reports : Instr → List Byte
  | .unimpl op => [op]
  | _ => []

/-- No branch reports. -/
theorem reports_of_rel {i : Instr} (rel : i.format = .rel) : reports i = [] := by
  cases i with
  | unimpl => cases rel
  | _ => rfl

/-- An instruction appends its reports, and nothing else, to the trace. -/
theorem exec_diag {i : Instr} {s t : State} (h : exec i s = .next t) : t.diag = s.diag ++ reports i := by
  cases exec_effect h with
  | branch off row =>
    rw [reports_of_rel (format_of_mem_branchRows row)]
    exact (List.append_nil s.diag).symm
  | unimpl => rfl
  | _ => exact (List.append_nil s.diag).symm

/-- From another counter and another trace an instruction goes on too, to a state that differs in these two only. -/
theorem exec_with_cyc_diag {i : Instr} {s t : State} (c : Int) (d : List Byte) (h : exec i s = .next t) :
    ∃ u : State, exec i { s with cyc := c, diag := d } = .next u ∧ u = { t with cyc := u.cyc, diag := u.diag } := by
  cases exec_effect h with
  | @branch _ taken off row =>
    refine ⟨_, exec_of_mem_branchRows (s := { s with cyc := c, diag := d }) row, ?_⟩
    cases taken <;> rfl
  | pha page => exact ⟨_, execPhaWith_inPage params _ page, rfl⟩
  | pla page => exact ⟨_, execPlaWith_inPage params _ page, rfl⟩
  | jsr target page => exact ⟨_, execJsrWith_inPage params target _ page, rfl⟩
  | rts page => exact ⟨_, execRtsWith_inPage params _ page, rfl⟩
  | _ => exact ⟨_, rfl, rfl⟩

/-- Settles O49: the other run goes on to a state that differs in `cyc` and `diag` only; there it has taken the same row
of the cost table, which looks at neither, and made the same reports. -/
theorem cyclesAndTraceInfluenceNothing : Obligations.CyclesAndTraceInfluenceNothing := by
  intro i s t c d h
  refine ⟨reports i, exec_diag h, ?_⟩
  obtain ⟨u, hu, same⟩ := exec_with_cyc_diag c d h
  have taken : s.cyc - t.cyc = cycleCost i s := by rw [exec_cyc h, Int.sub_sub_self]
  have cycU : u.cyc = c - (s.cyc - t.cyc) := (exec_cyc hu).trans (by rw [taken]; rfl)
  have diagU : u.diag = d ++ reports i := exec_diag hu
  rw [hu, same, cycU, diagU]

/-! ### Hazard H1: a call at the bottom of the page (R155) -/

section
variable {s : State} (bottom : s.sp = 0x0100 ∨ s.sp = 0x0101)
include bottom

theorem spInPage_of_bottom : s.SpInPage := by
  rcases bottom with sp | sp <;> rw [State.SpInPage, sp] <;> decide

/-- Two below the bottom the pointer has left its page, and is put to the top. -/
theorem called_sp_of_bottom (target : Word) : (s.called target).sp = 0x01FF := by
  refine modifySp_below ?_
  rcases bottom with sp | sp <;> rw [sp] <;> decide

/-- The call does not write where it leaves the pointer. -/
theorem memRead_called_top_of_bottom (target : Word) : (s.called target).memRead 0x01FF = s.memRead 0x01FF := by
  have notHigh : (0x01FF : Word) ≠ jsrAddress s.sp + 1 := by rcases bottom with sp | sp <;> rw [sp] <;> decide
  have notLow : (0x01FF : Word) ≠ jsrAddress s.sp := by rcases bottom with sp | sp <;> rw [sp] <;> decide
  rw [memRead_called, if_neg notHigh, if_neg notLow]

end

/-- Settles O39: JSR stores two below the old pointer with no wrap and leaves the pointer at the top of the page, so the
RTS pulls from the top and, after the wrap, from the bottom. -/
theorem callAtPageBottomLosesReturn : Obligations.CallAtPageBottomLosesReturn := by
  intro target s bottom
  have top := called_sp_of_bottom bottom target
  have pageT : (s.called target).SpInPage := by rw [State.SpInPage, top]; decide
  have wrapped : pulledSp (s.called target).sp = 0x0100 := by rw [top]; decide
  refine ⟨s.called target, exec_jsr target (spInPage_of_bottom bottom), top, fun sp => ?_, fun sp => ?_, _,
    exec_rts pageT, ?_, ?_⟩
  · have low : jsrAddress s.sp = 0x00FE := by rw [sp]; rfl
    have high : jsrAddress s.sp + 1 = 0x00FF := by rw [low]; rfl
    refine ⟨low ▸ memRead_called_low target s, high ▸ memRead_called_high target s, ?_⟩
    rw [memRead_called, high, low, if_neg (by decide), if_neg (by decide)]
  · have low : jsrAddress s.sp = 0x00FF := by rw [sp]; rfl
    have high : jsrAddress s.sp + 1 = 0x0100 := by rw [low]; rfl
    exact ⟨low ▸ memRead_called_low target s, high ▸ memRead_called_high target s⟩
  · show pulledSp (pulledSp (s.called target).sp) = 0x0101
    rw [wrapped]
    decide
  · show wordOf ((s.called target).memRead (pulledSp (s.called target).sp)) ((s.called target).memRead _) + 1 = _
    rw [wrapped, top, memRead_called_top_of_bottom bottom target]

end Sys2Proof.Machine
